-- ==== Sys2Proof/Word.lean ====
section
/-! DEFINITION. The byte, and the fixed constants of the wire envelope (spec/00_scope.md R2, R5, R6). -/

namespace Sys2Proof

/-- One byte of a stream; bit 0 is the least significant (R5). -/
abbrev Byte := BitVec 8

/-- The header `HDR` that starts every envelope (R2). -/
def hdrByte : Byte := 0xAA#8

/-- The end marker `END` that closes every envelope (R2). -/
def endByte : Byte := 0x55#8

/-- The format marker `MARK` that the encoder writes into bits 7:6 of the type byte (R2). -/
def formatMark : BitVec 2 := 0b11#2

end Sys2Proof
end

