-- ==== Sys2Proof/Config.lean ====
section
/-! DEFINITION. What an implementation fixes: the depth of the result queue (spec/00_scope.md R4). -/

namespace Sys2Proof.Config

/-- How many records more than one the result queue holds. It has no body, so no proof can lean on a value of it:
the spec leaves `RXQ_DEPTH` OPEN (spec/92_eei_decisions.md D5, spec/93_implementation_defined.md I1).
DESIGN CHOICE, safe: notes/assumptions/5.md. -/
opaque rxqSpare : Nat

/-- `RXQ_DEPTH`, an integer that is at least 1: the capacity of `rxq` (R4, R18). -/
def rxqDepth : Nat := rxqSpare + 1

end Sys2Proof.Config
end

