-- ==== Sys2Proof/Syntax.lean ====
section
/-! DEFINITION. The operations and envelope kinds of spec/opcode_table.json, the TX frame descriptor, and the raw words in
which they reach the block (spec/30_encoding.md R50, R55, R60). -/

namespace Sys2Proof

/-- The TX frame descriptor (R50): identifier, flags, length and the eight payload lanes `data[0]` to `data[7]`.
That `data` has eight lanes is a check of WellFormed.lean. -/
structure Descriptor where
  id   : BitVec 32
  ext  : Bool
  rtr  : Bool
  len  : BitVec 4
  data : List Byte
deriving DecidableEq, Repr

/-- One constructor per row of spec/opcode_table.json. -/
inductive Instr where
  /-- ENV_STD_DATA: a candidate whose type byte has bits 5:4 = 00 (R55); its operands are MARK and L (R41). -/
  | envStdData (mark : BitVec 2) (len : BitVec 4)
  /-- ENV_STD_REMOTE: bits 5:4 = 01 (R55). -/
  | envStdRemote (mark : BitVec 2) (len : BitVec 4)
  /-- ENV_EXT_DATA: bits 5:4 = 10 (R55). -/
  | envExtData (mark : BitVec 2) (len : BitVec 4)
  /-- ENV_EXT_REMOTE: bits 5:4 = 11 (R55). -/
  | envExtRemote (mark : BitVec 2) (len : BitVec 4)
  /-- TX_SUBMIT (spec/40_encoder.md R68). -/
  | txSubmit (d : Descriptor)
  /-- TX_EMIT (R69). -/
  | txEmit
  /-- RX_PUSH (spec/41_decoder.md R76). -/
  | rxPush (b : Byte)
  /-- RX_STEP (R77). -/
  | rxStep
  /-- RX_POP (R89). -/
  | rxPop
  /-- RESET (spec/70_reset_and_hazards.md R118). -/
  | reset
deriving DecidableEq, Repr

/-- The interfaces of R60. Each belongs to one agent (spec/60_exceptions.md R115). -/
inductive Port where
  /-- `tx_frame_in`, the TX submitter's. -/
  | txFrameIn
  /-- `tx_byte_out`, the TX byte consumer's. -/
  | txByteOut
  /-- `rx_byte_in`, the RX byte producer's. -/
  | rxByteIn
  /-- The RX decoder's own turn, inside the block. -/
  | internal
  /-- `rx_result_out`, the result consumer's. -/
  | rxResultOut
  /-- `rst`, the reset source's. -/
  | rst
deriving DecidableEq, Repr

/-- One transaction as it is offered at an interface: the interface and the raw word it carries (R60; the descriptor's
102 bits are R50's). -/
inductive Transaction where
  | txFrameIn (record : BitVec 102)
  | txByteOut
  | rxByteIn (byte : Byte)
  | internal
  | rxResultOut
  | rst
deriving DecidableEq, Repr

/-- A raw word that stands for a row of the opcode table: the type byte of a candidate in the RX stream (R55), or a
transaction (R60: "the decoder of an operation is the interface it arrives on"). -/
inductive Code where
  | typeByte (t : Byte)
  | offered (t : Transaction)
deriving DecidableEq, Repr

end Sys2Proof
end

