-- ==== Sys2Proof/Machine/State.lean ====
section
/-! DEFINITION. The state of the block, the values its interfaces carry, its reasons to stop, and the state after reset
(spec/10_state.md R10 to R23, spec/30_encoding.md R51 to R53, spec/70_reset_and_hazards.md R118, R119). -/

namespace Sys2Proof.Machine

/-- The two values of `rx_mode` (R17). -/
inductive RxMode where
  /-- The last decode attempt reached a stop condition: the decoder waits for a byte. -/
  | idle
  /-- At least one more decode attempt must run. -/
  | scan
deriving DecidableEq, Repr

/-- The reasons for which the encoder refuses a descriptor (spec/60_exceptions.md R102, R103, R105). -/
inductive ValidationError where
  | payloadTooLong
  | identifierOutOfRange
deriving DecidableEq, Repr

/-- The status every TX_SUBMIT returns (R51). -/
inductive TxStatus where
  | ok
  | payloadTooLong
  | identifierOutOfRange
deriving DecidableEq, Repr

/-- The reasons of a FramingError (R53). The block emits only the first (R107). -/
inductive FramingReason where
  | badEndMarker
  | noHeaderFound
deriving DecidableEq, Repr

/-- A decoded frame as a record carries it: the identifier zero-extended to 32 bits, the flags and the length of the type
byte, and the fifteen payload lanes `data[0]` to `data[14]` (R52, R54). -/
structure FrameRecord where
  id   : BitVec 32
  ext  : Bool
  rtr  : Bool
  len  : BitVec 4
  data : List Byte
deriving DecidableEq, Repr

/-- A result record: `Frame{…}` or `FramingError{reason, count, skipped}` (R9, R52). -/
inductive Record where
  | frame (f : FrameRecord)
  | framingError (reason : FramingReason) (count : BitVec 5) (skipped : Byte)
deriving DecidableEq, Repr

/-- Reasons for which a step stops the machine. The block has none: no error of it is fatal and none stops it
(spec/60_exceptions.md R113), so no constructor is here and no meaning raises one (DEDUCED, log entry 10: safe, as
no claim can be about a stop that the spec does not have). -/
inductive Fault where
deriving DecidableEq, Repr

/-- Reasons for which a step refuses to give a meaning. -/
inductive Refusal where
  /-- An arm of Dispatch.lean without a meaning raises it, and names its row. Safe: it says nothing of the hardware. No arm
  does so in this model. -/
  | notModelled (mnemonic : String)
deriving DecidableEq, Repr

/-- The four state elements of the block (R10), and the model's own four lists, which stand for the agents outside it. -/
structure State where
  /-- `tx_q`: the bytes of the current envelope not yet emitted, first byte first (R14). -/
  txQ        : List Byte
  /-- `rx_buf`: the bytes received and not yet consumed or discarded, oldest first (R16). -/
  rxBuf      : List Byte
  /-- `rx_mode` (R17). -/
  rxMode     : RxMode
  /-- `rxq`: the result records not yet taken, oldest first (R18). -/
  rxq        : List Record
  /-- The model's own: what the agents offer at the interfaces, oldest first (DESIGN CHOICE, log entry 1: safe). -/
  offers     : List Transaction
  /-- The model's own: the statuses TX_SUBMIT has returned, oldest first (DESIGN CHOICE, log entry 4: unsafe). -/
  statusOut  : List TxStatus
  /-- The model's own: the bytes TX_EMIT has delivered, oldest first (DESIGN CHOICE, log entry 4: unsafe). -/
  bytesOut   : List Byte
  /-- The model's own: the records RX_POP has returned, oldest first (DESIGN CHOICE, log entry 4: unsafe). -/
  resultsOut : List Record
deriving DecidableEq, Repr

/-- The state after reset and at power-on: every element empty, `rx_mode = IDLE` (R118, R119). No agent has offered or
received anything yet (log entries 1 and 4). -/
def State.reset : State where
  txQ        := []
  rxBuf      := []
  rxMode     := .idle
  rxq        := []
  offers     := []
  statusOut  := []
  bytesOut   := []
  resultsOut := []

end Sys2Proof.Machine
end

