-- ==== Sys2Proof/Machine/Flags.lean ====
section
/-! DEFINITION. The three derived status signals; the block has no stored flag (spec/10_state.md R12). -/

namespace Sys2Proof.Machine

/-- `tx_busy = (tx_q ≠ [])` (R12). -/
def State.txBusy (s : State) : Bool := !s.txQ.isEmpty

/-- `rx_ready = (rx_mode = IDLE)` (R12). -/
def State.rxReady (s : State) : Bool := s.rxMode == .idle

/-- `res_valid = (rxq ≠ [])` (R12). -/
def State.resValid (s : State) : Bool := !s.rxq.isEmpty

end Sys2Proof.Machine
end

