-- ==== Sys2Proof/WellFormed.lean ====
section
/-! DEFINITION. Which terms of Syntax.lean the hardware's words can stand for (spec/30_encoding.md R50, R57, R58). -/

namespace Sys2Proof

/-- A descriptor has eight payload lanes (R50). Every value of its other fields can stand in the 102 bits (R58). -/
abbrev Descriptor.WellFormed (d : Descriptor) : Prop := d.data.length = 8

/-- Every type byte and every pushed byte is legal (R57, spec/41_decoder.md R76); a TX_SUBMIT needs the eight lanes of
its descriptor. -/
def Instr.wellFormed : Instr → Bool
  | .envStdData _ _ => true
  | .envStdRemote _ _ => true
  | .envExtData _ _ => true
  | .envExtRemote _ _ => true
  | .txSubmit d => decide d.WellFormed
  | .txEmit => true
  | .rxPush _ => true
  | .rxStep => true
  | .rxPop => true
  | .reset => true

end Sys2Proof
end

