-- ==== Sys2Proof/Decode.lean ====
section
/-! DEFINITION. Decoding of the type byte, of the TX descriptor and of the transactions, their encoder, and the opcode
table as data (spec/30_encoding.md R41 to R43, R50, R55, R60). -/

namespace Sys2Proof

/-! ### The type byte -/

/-- Bits 7:6 of a type byte: the format marker, which the decoder does not interpret (R41, R43). -/
def typeMark (t : Byte) : BitVec 2 := t.extractLsb' 6 2

/-- Bit 5 of a type byte: `E`, the extended flag (R41, R43). -/
def typeExt (t : Byte) : Bool := t.getLsbD 5

/-- Bit 4 of a type byte: `R`, the remote flag (R41, R43). -/
def typeRtr (t : Byte) : Bool := t.getLsbD 4

/-- Bits 3:0 of a type byte: `L`, the payload length 0 to 15 (R41, R43). -/
def typeLen (t : Byte) : BitVec 4 := t.extractLsb' 0 4

/-- The envelope kind is read from bits 5:4 alone; no type byte is illegal (R55, R57). -/
def decodeTypeByte (t : Byte) : Instr :=
  match typeExt t, typeRtr t with
  | false, false => .envStdData (typeMark t) (typeLen t)
  | false, true  => .envStdRemote (typeMark t) (typeLen t)
  | true,  false => .envExtData (typeMark t) (typeLen t)
  | true,  true  => .envExtRemote (typeMark t) (typeLen t)

/-- The type byte with these four fields (R41). -/
def encodeTypeByte (mark : BitVec 2) (ext rtr : Bool) (len : BitVec 4) : Byte :=
  mark ++ BitVec.ofBool ext ++ BitVec.ofBool rtr ++ len

/-! ### Payload lanes of a packed record -/

/-- `count` lanes of eight bits read from `v`, lane 0 in the least significant bits (R50, R52). -/
def lanesOf : Nat → Nat → List Byte
  | 0, _ => []
  | count + 1, v => BitVec.ofNat 8 v :: lanesOf count (v / 256)

/-- The lanes as one number, lane 0 in the least significant bits (R50, R52). -/
def lanesValue : List Byte → Nat
  | [] => 0
  | b :: bs => b.toNat + 256 * lanesValue bs

/-! ### The TX descriptor -/

/-- Reads the fields of R50 out of the 102 bits. -/
def Descriptor.unpack (w : BitVec 102) : Descriptor where
  id   := w.extractLsb' 0 32
  ext  := w.getLsbD 32
  rtr  := w.getLsbD 33
  len  := w.extractLsb' 34 4
  data := lanesOf 8 (w.extractLsb' 38 64).toNat

/-- Lays the fields out as R50 does, the lanes in the upper 64 bits. -/
def Descriptor.pack (d : Descriptor) : BitVec 102 :=
  BitVec.ofNat 64 (lanesValue d.data) ++ d.len ++ BitVec.ofBool d.rtr ++ BitVec.ofBool d.ext ++ d.id

/-! ### Transactions -/

/-- "The decoder of an operation is the interface it arrives on" (R60). -/
def decodeTransaction : Transaction → Instr
  | .txFrameIn record => .txSubmit (Descriptor.unpack record)
  | .txByteOut        => .txEmit
  | .rxByteIn byte    => .rxPush byte
  | .internal         => .rxStep
  | .rxResultOut      => .rxPop
  | .rst              => .reset

/-- The interface a transaction is offered at (R60). -/
def Transaction.port : Transaction → Port
  | .txFrameIn _ => .txFrameIn
  | .txByteOut   => .txByteOut
  | .rxByteIn _  => .rxByteIn
  | .internal    => .internal
  | .rxResultOut => .rxResultOut
  | .rst         => .rst

/-- Decoding of a raw word. It is total: the spec makes no type byte and no interface word illegal (R57, R58). -/
def decodeCode : Code → Instr
  | .typeByte t => decodeTypeByte t
  | .offered t  => decodeTransaction t

/-- The raw word of an instruction (R41, R50, R60). -/
def encode : Instr → Code
  | .envStdData mark len   => .typeByte (encodeTypeByte mark false false len)
  | .envStdRemote mark len => .typeByte (encodeTypeByte mark false true len)
  | .envExtData mark len   => .typeByte (encodeTypeByte mark true false len)
  | .envExtRemote mark len => .typeByte (encodeTypeByte mark true true len)
  | .txSubmit d            => .offered (.txFrameIn d.pack)
  | .txEmit                => .offered .txByteOut
  | .rxPush b              => .offered (.rxByteIn b)
  | .rxStep                => .offered .internal
  | .rxPop                 => .offered .rxResultOut
  | .reset                 => .offered .rst

/-! ### A number that stands for a row's bits -/

/-- Why a number of so many bits is no word of the block. -/
inductive DecodeReject where
  /-- The spec has no word of this width that names its row by its bits (log entry 8). -/
  | noWordOfWidth (nbits : Nat)
  /-- A one is set above the word's own bits. -/
  | bitAboveWord (nbits w : Nat)
deriving DecidableEq, Repr

/-- Reads a number as a word of the block: 8 bits are a type byte (R55); 104 bits, the 102 of R50 in whole bytes, are a
TX descriptor, which only `tx_frame_in` takes (R60). Every other width is rejected. -/
def decodeNumber (nbits w : Nat) : Except DecodeReject Code :=
  match nbits with
  | 8   => if w < 2 ^ 8 then .ok (.typeByte (BitVec.ofNat 8 w)) else .error (.bitAboveWord nbits w)
  | 104 => if w < 2 ^ 102 then .ok (.offered (.txFrameIn (BitVec.ofNat 102 w))) else .error (.bitAboveWord nbits w)
  | _   => .error (.noWordOfWidth nbits)

/-- The instruction the decoder reads from a row's bits, none where it rejects them. -/
def decodeTableWord (nbits w : Nat) : Option Instr :=
  match decodeNumber nbits w with
  | .ok c    => some (decodeCode c)
  | .error _ => none

/-! ### The opcode table -/

/-- How a row of the opcode table is recognised: by bits of the type byte, or by the interface (R55, R60). -/
inductive RowMatch where
  | typeBits (mask value : Byte)
  | interface (p : Port)
deriving DecidableEq, Repr

/-- One row of spec/opcode_table.json. -/
structure OpcodeRow where
  mnemonic : String
  select   : RowMatch
deriving DecidableEq, Repr

/-- spec/opcode_table.json: the envelope kinds with their mask 0x30 and match (R55), and the six operations with their
interfaces (R60). -/
def opcodeTable : List OpcodeRow :=
  [ ⟨"ENV_STD_DATA",   .typeBits 0x30#8 0x00#8⟩,
    ⟨"ENV_STD_REMOTE", .typeBits 0x30#8 0x10#8⟩,
    ⟨"ENV_EXT_DATA",   .typeBits 0x30#8 0x20#8⟩,
    ⟨"ENV_EXT_REMOTE", .typeBits 0x30#8 0x30#8⟩,
    ⟨"TX_SUBMIT", .interface .txFrameIn⟩,
    ⟨"TX_EMIT",   .interface .txByteOut⟩,
    ⟨"RX_PUSH",   .interface .rxByteIn⟩,
    ⟨"RX_STEP",   .interface .internal⟩,
    ⟨"RX_POP",    .interface .rxResultOut⟩,
    ⟨"RESET",     .interface .rst⟩ ]

/-- Whether a raw word belongs to a row of the table. -/
def OpcodeRow.fits (r : OpcodeRow) : Code → Bool
  | .typeByte t =>
    match r.select with
    | .typeBits mask value => t &&& mask == value
    | .interface _         => false
  | .offered t =>
    match r.select with
    | .typeBits _ _ => false
    | .interface p  => t.port == p

/-- The table's name of an instruction. -/
def Instr.mnemonic : Instr → String
  | .envStdData _ _   => "ENV_STD_DATA"
  | .envStdRemote _ _ => "ENV_STD_REMOTE"
  | .envExtData _ _   => "ENV_EXT_DATA"
  | .envExtRemote _ _ => "ENV_EXT_REMOTE"
  | .txSubmit _       => "TX_SUBMIT"
  | .txEmit           => "TX_EMIT"
  | .rxPush _         => "RX_PUSH"
  | .rxStep           => "RX_STEP"
  | .rxPop            => "RX_POP"
  | .reset            => "RESET"

end Sys2Proof
end

