-- ==== Sys2Proof/Machine/Operands.lean ====
section
/-! DEFINITION. The fields of an envelope, written and read, and the encoder as a function (spec/30_encoding.md R39 to R49,
spec/40_encoder.md R63 to R67). -/

namespace Sys2Proof.Machine

/-- `w`, the width of the identifier field in bytes (R44). -/
def idWidth (ext : Bool) : Nat := if ext then 4 else 2

/-- The least identifier that is out of range (R3, R64). -/
def idLimit (ext : Bool) : Nat := if ext then 2 ^ 29 else 2 ^ 11

/-- `n = 3 + w + L`, exactly, with no wrap (R40, R45). -/
def envelopeLen (ext : Bool) (len : BitVec 4) : Nat := 3 + idWidth ext + len.toNat

/-- `n(t)`, the envelope length a type byte implies (R45). -/
def typeByteLen (t : Byte) : Nat := envelopeLen (typeExt t) (typeLen t)

/-- `(v >> sh) & 0xFF` as a byte (R46). -/
def byteAt (v : BitVec 32) (sh : Nat) : Byte := ((v >>> sh) &&& 0xFF#32).setWidth 8

/-- The identifier field, most significant byte first (R26, R46). -/
def idBytes (ext : Bool) (id : BitVec 32) : List Byte :=
  if ext then [byteAt id 24, byteAt id 16, byteAt id 8, byteAt id 0] else [byteAt id 8, byteAt id 0]

/-- `BE(s)`, the big-endian value of a byte sequence (spec/00_scope.md §5). -/
def bigEndian (bs : List Byte) : Nat := bs.foldl (fun v b => v * 256 + b.toNat) 0

/-- `MemRead(a, n)`: `n` bytes of the buffer from offset `a` (R33); the decoder uses it only inside the buffer. -/
def memRead (buf : List Byte) (a n : Nat) : List Byte := (buf.drop a).take n

/-- The record of a valid candidate at the front of `buf` (R47, R54, R85). -/
def frameRecord (ext rtr : Bool) (len : BitVec 4) (buf : List Byte) : Record :=
  .frame
    { id := BitVec.ofNat 32 (bigEndian (memRead buf 2 (idWidth ext))), ext := ext, rtr := rtr, len := len,
      data := memRead buf (2 + idWidth ext) len.toNat ++ List.replicate (15 - len.toNat) 0#8 }

/-- Whether the end marker stands at offset `n - 1` and the header at offset 0 (R84). It is used only where the buffer
holds `n` bytes. -/
def candidateValid (ext : Bool) (len : BitVec 4) (buf : List Byte) : Bool :=
  buf.getD (envelopeLen ext len - 1) 0#8 == endByte && buf.getD 0 0#8 == hdrByte

/-- The buffer from its first 0xAA on: what is left when the prefix before the header is dropped (R79), and `[]` when there
is no header (R78). -/
def fromHeader (buf : List Byte) : List Byte := buf.dropWhile (· != hdrByte)

/-- Whether a decode attempt on `buf` emits a record: after the prefix is dropped there are at least 2 and at least `n`
bytes (R87). -/
def attemptEmits (buf : List Byte) : Bool :=
  match fromHeader buf with
  | _ :: t :: rest => decide (typeByteLen t ≤ rest.length + 2)
  | _ => false

/-- The type byte the encoder writes (R42). -/
def encoderTypeByte (ext rtr : Bool) (len : BitVec 4) : Byte :=
  0xC0#8 ||| ((BitVec.ofBool ext).setWidth 8 <<< 5) ||| ((BitVec.ofBool rtr).setWidth 8 <<< 4)
    ||| (len.setWidth 8 &&& 0x0F#8)

/-- `Ok(e)` or `Err(reason)` (R63). -/
inductive EncodeResult where
  | ok (envelope : List Byte)
  | err (reason : ValidationError)
deriving DecidableEq, Repr

/-- The encoder: the length is checked first, then the identifier, then the envelope is built (R64, R65). Payload lanes
at and above `len` are not read (R67); a remote frame keeps its payload (R66). -/
def encodeFrame (d : Descriptor) : EncodeResult :=
  if d.len.toNat > 8 then .err .payloadTooLong
  else if d.id.toNat ≥ idLimit d.ext then .err .identifierOutOfRange
  else .ok ([hdrByte, encoderTypeByte d.ext d.rtr d.len] ++ idBytes d.ext d.id ++ d.data.take d.len.toNat ++ [endByte])

end Sys2Proof.Machine
end

