-- ==== Sys2Proof/Machine/Record.lean ====
section
/-! DEFINITION. The numeric codes and the packed layout of what the interfaces deliver (spec/30_encoding.md R51 to R54). -/

namespace Sys2Proof.Machine

/-- The status that reports a ValidationError (R51). -/
def ValidationError.status : ValidationError → TxStatus
  | .payloadTooLong       => .payloadTooLong
  | .identifierOutOfRange => .identifierOutOfRange

/-- The 2-bit code of a status (R51). -/
def TxStatus.code : TxStatus → BitVec 2
  | .ok                   => 0
  | .payloadTooLong       => 1
  | .identifierOutOfRange => 2

/-- Reads a status code; 3 is reserved (R51, spec/93_implementation_defined.md I2). The block has no such reader: that 3 reads
as no status is the model's choice (DESIGN CHOICE, log entry 11: safe). -/
def TxStatus.ofCode (c : BitVec 2) : Option TxStatus :=
  if c = 0 then some .ok else if c = 1 then some .payloadTooLong
  else if c = 2 then some .identifierOutOfRange else none

/-- The 2-bit code of a framing reason (R53). -/
def FramingReason.code : FramingReason → BitVec 2
  | .badEndMarker  => 1
  | .noHeaderFound => 2

/-- Reads a reason code; 0 and 3 are reserved (R53). NoHeaderFound has a code, though nothing emits it (R107). The block has
no such reader: that 0 and 3 read as no reason, and 2 as NoHeaderFound, is the model's choice (DESIGN CHOICE, log entry 11:
safe). -/
def FramingReason.ofCode (c : BitVec 2) : Option FramingReason :=
  if c = 1 then some .badEndMarker else if c = 2 then some .noHeaderFound else none

/-- The 159 bits of a result record (R52). -/
def Record.pack : Record → BitVec 159
  | .frame f =>
    BitVec.ofNat 120 (lanesValue f.data) ++ f.len ++ BitVec.ofBool f.rtr ++ BitVec.ofBool f.ext ++ f.id ++ 0#1
  | .framingError reason count skipped => 0#143 ++ skipped ++ count ++ reason.code ++ 1#1

/-- Reads 159 bits as a result record with the layout of R52. The spec gives no reader, and the block reads no packed record,
so what the words that the block never produces read as is the model's choice (DESIGN CHOICE, log entry 11: safe). A
FramingError word with a reserved reason code, or with a one above `skipped`, is no record. A Frame word is read field by
field, whatever its lanes and identifier: one with a one in a lane at or above `len`, which R52 and R54 say is zero, reads as
a Frame that holds that lane, and one with `ext` zero and an identifier of more than 16 bits as a Frame that holds that
identifier. A FramingError word with another reason, count or skipped byte than R91 gives reads as such a record too. -/
def Record.unpack (w : BitVec 159) : Option Record :=
  match w.getLsbD 0 with
  | false =>
    some (.frame
      { id := w.extractLsb' 1 32, ext := w.getLsbD 33, rtr := w.getLsbD 34, len := w.extractLsb' 35 4,
        data := lanesOf 15 (w.extractLsb' 39 120).toNat })
  | true =>
    if w.extractLsb' 16 143 = 0#143 then
      (FramingReason.ofCode (w.extractLsb' 1 2)).map
        (fun reason => .framingError reason (w.extractLsb' 3 5) (w.extractLsb' 8 8))
    else none

end Sys2Proof.Machine
end

