-- ==== Sys2Proof/Machine/Ops.lean ====
section
/-! DEFINITION. The operations on the block's stores, the two errors, the decision of one candidate, and the choice of the
next transaction (spec/00_scope.md §5 and R8, spec/41_decoder.md R83 to R87, spec/60_exceptions.md R104, R111). -/

namespace Sys2Proof.Machine

/-! ### One store each -/

/-- `tx_q <- q`. -/
def State.setTxQ (s : State) (q : List Byte) : State := { s with txQ := q }

/-- `rx_buf <- buf`. -/
def State.setRxBuf (s : State) (buf : List Byte) : State := { s with rxBuf := buf }

/-- `rx_mode <- m`. -/
def State.setRxMode (s : State) (m : RxMode) : State := { s with rxMode := m }

/-- `rxq <- q`. -/
def State.setRxq (s : State) (q : List Record) : State := { s with rxq := q }

/-- The transactions still offered. -/
def State.setOffers (s : State) (l : List Transaction) : State := { s with offers := l }

/-- `emit r`: append a record to the result queue (spec/00_scope.md §5). -/
def State.emitRecord (s : State) (r : Record) : State := { s with rxq := s.rxq ++ [r] }

/-- TX_SUBMIT returns a status to the submitter (R51). -/
def State.deliverStatus (s : State) (st : TxStatus) : State := { s with statusOut := s.statusOut ++ [st] }

/-- TX_EMIT returns a byte to the byte consumer (R69). -/
def State.deliverByte (s : State) (b : Byte) : State := { s with bytesOut := s.bytesOut ++ [b] }

/-- RX_POP returns a record to the result consumer (R89). -/
def State.deliverRecord (s : State) (r : Record) : State := { s with resultsOut := s.resultsOut ++ [r] }

/-! ### The two errors

There is no trap entry, no saved register and no return from an error (R111, R112): an error has the effect below and
the agents go on. -/

/-- `raise ValidationError(reason)`: the status is returned and no state element changes (R104, R111). -/
def State.raiseValidationError (s : State) (e : ValidationError) : State := s.deliverStatus e.status

/-- A BadEndMarker: one record appended, exactly the front byte removed, `rx_mode` left at SCAN (R86, R106, R111). -/
def State.raiseBadEndMarker (s : State) : State :=
  (s.emitRecord (.framingError .badEndMarker 1 (s.rxBuf.getD 0 0#8))).setRxBuf (s.rxBuf.drop 1)

/-! ### The result queue's room -/

/-- Whether a queue of capacity `depth` takes one more record: `len(q) < depth`. It is written by recursion on both, so
that it evaluates on an empty queue although `RXQ_DEPTH` is open. -/
def hasRoom : List Record → Nat → Bool
  | [], 0 => false
  | [], _ + 1 => true
  | _ :: _, 0 => false
  | _ :: q, depth + 1 => hasRoom q depth

/-- `len(rxq) < RXQ_DEPTH` (R87). -/
def State.canEmit (s : State) : Bool := hasRoom s.rxq Config.rxqDepth

/-! ### The decision of one candidate -/

/-- What a decode attempt does once the type byte at offset 1 has been read as these fields (R81): too few bytes, wait for
more (R83); a record is due and the queue is full, nothing happens (R87); a valid candidate becomes a Frame and is
removed (R84, R85, R88); any other loses its first byte (R86). It is part of RX_STEP, so outside SCAN it waits. -/
def State.decideCandidate (s : State) (ext rtr : Bool) (len : BitVec 4) : State :=
  match s.rxMode with
  | .idle => s
  | .scan =>
    if s.rxBuf.length < envelopeLen ext len then s.setRxMode .idle
    else if s.canEmit = false then s
    else if candidateValid ext len s.rxBuf then
      (s.emitRecord (frameRecord ext rtr len s.rxBuf)).setRxBuf (s.rxBuf.drop (envelopeLen ext len))
    else s.raiseBadEndMarker

/-! ### Which operation is next -/

/-- The enable condition of RX_STEP: SCAN, and room when the attempt emits (R77, R87). -/
def State.rxStepReady (s : State) : Bool :=
  !s.rxReady && (!attemptEmits s.rxBuf || s.canEmit)

/-- The enable condition of a transaction (R60). -/
def State.ready (s : State) : Transaction → Bool
  | .txFrameIn _ => !s.txBusy
  | .txByteOut   => s.txBusy
  | .rxByteIn _  => s.rxReady
  | .internal    => s.rxStepReady
  | .rxResultOut => s.resValid
  | .rst         => true

/-- The transaction that has its turn: the first one offered that is enabled (R8; DESIGN CHOICE, log entry 1: safe). -/
def State.turn (s : State) : Option Transaction := s.offers.find? s.ready

/-- The instruction of the next step. Where no offer is enabled the RX decoder, which is inside the block, has its turn
(R115; DEDUCED, log entry 3: safe). -/
def State.fetch (s : State) : Instr :=
  match s.turn with
  | some t => decodeTransaction t
  | none   => .rxStep

/-- The state in which the fetched instruction runs: its offer is taken from the list. -/
def State.granted (s : State) : State := s.setOffers (s.offers.eraseP s.ready)

/-- An envelope around a type byte, with zeros for its identifier and payload (log entry 8). -/
def envelopeAround (t : Byte) : List Byte :=
  [hdrByte, t] ++ List.replicate (typeByteLen t - 3) 0#8 ++ [endByte]

/-- The state with a raw word placed where the next step takes it from: a type byte at the front of the reassembly buffer,
in its envelope, with the decoder about to run; a transaction as the only offer, a descriptor with the TX half free
(DESIGN CHOICE, log entry 8: unsafe). -/
def State.placeCode (s : State) : Code → State
  | .typeByte t => ((s.setRxBuf (envelopeAround t)).setRxMode .scan).setOffers []
  | .offered (.txFrameIn r) => (s.setTxQ []).setOffers [.txFrameIn r]
  | .offered t => s.setOffers [t]

end Sys2Proof.Machine
end

