-- ==== Sys2Proof/Machine/Envelope.lean ====
section
/-! DEFINITION. The four envelope kinds as the decoder acts on them (spec/30_encoding.md R55, spec/41_decoder.md R81 to
R88): RX_STEP reads the type byte and runs one of these (DEDUCED, log entry 7: safe). The marker bits are no part of the
effect (R43). -/

namespace Sys2Proof.Machine

/-- ENV_STD_DATA: `E = 0`, `R = 0`, a 2-byte identifier (R55). -/
def execEnvStdData (_mark : BitVec 2) (len : BitVec 4) (s : State) : Host.Outcome State Fault Refusal :=
  .next (s.decideCandidate false false len)

/-- ENV_STD_REMOTE: `E = 0`, `R = 1`, a 2-byte identifier; the payload is kept (R55, R88). -/
def execEnvStdRemote (_mark : BitVec 2) (len : BitVec 4) (s : State) : Host.Outcome State Fault Refusal :=
  .next (s.decideCandidate false true len)

/-- ENV_EXT_DATA: `E = 1`, `R = 0`, a 4-byte identifier (R55). -/
def execEnvExtData (_mark : BitVec 2) (len : BitVec 4) (s : State) : Host.Outcome State Fault Refusal :=
  .next (s.decideCandidate true false len)

/-- ENV_EXT_REMOTE: `E = 1`, `R = 1`, a 4-byte identifier; the payload is kept (R55, R88). -/
def execEnvExtRemote (_mark : BitVec 2) (len : BitVec 4) (s : State) : Host.Outcome State Fault Refusal :=
  .next (s.decideCandidate true true len)

/-- The kind that a type byte selects, run (R55, R81). -/
def execEnvelope (t : Byte) (s : State) : Host.Outcome State Fault Refusal :=
  match typeExt t, typeRtr t with
  | false, false => execEnvStdData (typeMark t) (typeLen t) s
  | false, true  => execEnvStdRemote (typeMark t) (typeLen t) s
  | true,  false => execEnvExtData (typeMark t) (typeLen t) s
  | true,  true  => execEnvExtRemote (typeMark t) (typeLen t) s

end Sys2Proof.Machine
end

