-- ==== Sys2Proof/Machine/Reset.lean ====
section
/-! DEFINITION. RESET (spec/70_reset_and_hazards.md R118). -/

namespace Sys2Proof.Machine

/-- RESET (R118): always enabled; clears the four state elements. What agents offer and what they have received lies
outside the block and stays (DESIGN CHOICE, log entry 4: unsafe). -/
def execReset (s : State) : Host.Outcome State Fault Refusal :=
  .next ((((s.setTxQ []).setRxBuf []).setRxMode .idle).setRxq [])

end Sys2Proof.Machine
end

