-- ==== Sys2Proof/Machine/Rx.lean ====
section
/-! DEFINITION. The RX family (spec/41_decoder.md R76 to R89). An operation that is not enabled waits: the state is unchanged
(DESIGN CHOICE, log entry 2: safe). -/

namespace Sys2Proof.Machine

/-- RX_PUSH (R76): enabled when `rx_mode = IDLE`; appends the byte and starts decoding. -/
def execRxPush (b : Byte) (s : State) : Host.Outcome State Fault Refusal :=
  if s.rxReady then .next ((s.setRxBuf (s.rxBuf ++ [b])).setRxMode .scan) else .next s

/-- RX_STEP (R77): one decode attempt. No header, the buffer is discarded and the run ends (R78); a lone header, the run
ends (R80); otherwise the prefix is dropped (R79) and the envelope kind of the type byte decides (R81). While it would
emit into a full queue it waits with its state unchanged, the prefix included (R87). -/
def execRxStep (s : State) : Host.Outcome State Fault Refusal :=
  if s.rxStepReady then
    match fromHeader s.rxBuf with
    | []             => .next ((s.setRxBuf []).setRxMode .idle)
    | [h]            => .next ((s.setRxBuf [h]).setRxMode .idle)
    | h :: t :: rest => execEnvelope t (s.setRxBuf (h :: t :: rest))
  else .next s

/-- RX_POP (R89): enabled when `rxq ≠ []`; delivers and removes the oldest record. -/
def execRxPop (s : State) : Host.Outcome State Fault Refusal :=
  match s.rxq with
  | []     => .next s
  | r :: q => .next ((s.setRxq q).deliverRecord r)

end Sys2Proof.Machine
end

