-- ==== Sys2Proof/Machine/Tx.lean ====
section
/-! DEFINITION. The TX family (spec/40_encoder.md R68, R69). An operation that is not enabled waits: the state is unchanged
(DESIGN CHOICE, log entry 2: safe). -/

namespace Sys2Proof.Machine

/-- TX_SUBMIT (R68): enabled when `tx_q = []`; loads the envelope and returns OK, or returns a ValidationError status and
changes no state element. -/
def execTxSubmit (d : Descriptor) (s : State) : Host.Outcome State Fault Refusal :=
  if s.txBusy then .next s
  else match encodeFrame d with
    | .err e => .next (s.raiseValidationError e)
    | .ok e  => .next ((s.setTxQ e).deliverStatus .ok)

/-- TX_EMIT (R69): enabled when `tx_q ≠ []`; delivers and removes the first byte. -/
def execTxEmit (s : State) : Host.Outcome State Fault Refusal :=
  match s.txQ with
  | []     => .next s
  | b :: q => .next ((s.setTxQ q).deliverByte b)

end Sys2Proof.Machine
end

