-- ==== Sys2Proof/Machine/Dispatch.lean ====
section
/-! DEFINITION. One arm per row of spec/opcode_table.json. -/

namespace Sys2Proof.Machine

def exec (i : Instr) (s : State) : Host.Outcome State Fault Refusal :=
  match i with
  | .envStdData mark len => Sys2Proof.Machine.execEnvStdData mark len s
  | .envStdRemote mark len => Sys2Proof.Machine.execEnvStdRemote mark len s
  | .envExtData mark len => Sys2Proof.Machine.execEnvExtData mark len s
  | .envExtRemote mark len => Sys2Proof.Machine.execEnvExtRemote mark len s
  | .txSubmit d => Sys2Proof.Machine.execTxSubmit d s
  | .txEmit => Sys2Proof.Machine.execTxEmit s
  | .rxPush b => Sys2Proof.Machine.execRxPush b s
  | .rxStep => Sys2Proof.Machine.execRxStep s
  | .rxPop => Sys2Proof.Machine.execRxPop s
  | .reset => Sys2Proof.Machine.execReset s

end Sys2Proof.Machine
end

