-- ==== Sys2Proof/Machine/Step.lean ====
section
/-! DEFINITION. One step of the block: one operation of one agent (spec/00_scope.md R7, R8), and the placing of a word. -/

namespace Sys2Proof.Machine

/-- The next operation, run whole: the first offer that is enabled, or the RX decoder's own turn (R7, R8). A turn that
nothing is enabled for leaves the state as it is. -/
def step (s : State) : Host.Outcome State Fault Refusal := exec s.fetch s.granted

/-- The state in which the next step runs the instruction of this table word (log entry 8); unchanged where the number is
no word. -/
def State.withFetchWord (s : State) (nbits w : Nat) : State :=
  match decodeNumber nbits w with
  | .ok c    => s.placeCode c
  | .error _ => s

end Sys2Proof.Machine
end

