-- ==== Sys2Proof/Machine/Script.lean ====
section
/-! DEFINITION. Sequences of operations: lists of instructions and transactions, runs of the block, and the scripts of
spec/30_encoding.md R61 and R62, `feed` among them (spec/41_decoder.md R99). -/

namespace Sys2Proof.Machine

/-- The next outcome after an outcome; a stop stays. -/
def andThen (o : Host.Outcome State Fault Refusal) (f : State → Host.Outcome State Fault Refusal) :
    Host.Outcome State Fault Refusal :=
  match o with
  | .next s    => f s
  | .fault r   => .fault r
  | .refused r => .refused r

/-- The instructions of a list in order. One that is not enabled changes nothing and the list goes on (log entry 2): this
is a sequence of turns, not a script, whose lines wait (`scriptStep`). -/
def runInstrs : List Instr → State → Host.Outcome State Fault Refusal
  | [], s      => .next s
  | i :: is, s => andThen (exec i s) (runInstrs is)

/-- The transactions of a list in order, each as its interface decodes it (R60). An offer whose turn comes while it is not
enabled is not taken. -/
def runTransactions (ts : List Transaction) (s : State) : Host.Outcome State Fault Refusal :=
  runInstrs (ts.map decodeTransaction) s

/-- The bytes that RX_PUSH accepts during `runTransactions ts s`: those offered while `rx_ready` holds (R76). -/
def pushedBytes : List Transaction → State → List Byte
  | [], _ => []
  | t :: ts, s =>
    let here := match t with
      | .rxByteIn b => if s.rxReady then [b] else []
      | _           => []
    match exec (decodeTransaction t) s with
    | .next s' => here ++ pushedBytes ts s'
    | _        => here

/-- `ts` is a run of the block from `s` to `t`: every operation is enabled where it is taken (R8, R61). -/
def EnabledRun : List Transaction → State → State → Prop
  | [], s, t      => s = t
  | u :: us, s, t => s.ready u = true ∧ ∃ m, exec (decodeTransaction u) s = .next m ∧ EnabledRun us m t

/-! ### Scripts (R61, R62)

A line performs an operation only where that is enabled. Where it is not, the line waits and stays the first of the
script, so nothing behind it is passed over and no byte of it is lost (R61, spec/70_reset_and_hazards.md R124 to R126). -/

/-- A line of a script: one operation (R61), or a loop of R62. -/
inductive ScriptLine where
  /-- One operation. -/
  | op (t : Transaction)
  /-- `run`: `step`, repeated while `rx_mode = SCAN`. -/
  | run
  /-- `drain`: `pop`, repeated while `rxq ≠ []`. -/
  | drain
  /-- The second half of `send`: `emit`, repeated while `tx_q ≠ []`. -/
  | emitAll
  /-- `loopback`: while `tx_q ≠ []`, `emit`, then `push` of the emitted byte, then `run`. -/
  | loopback
  /-- `run` in a script that interleaves `pop` (R62, last sentence): while SCAN, `pop` where there is a record, else
  `step`. -/
  | runTaking
deriving DecidableEq, Repr

/-- The operation a line asks for in a state and the lines it leaves once that is done; none where the line is over. -/
def ScriptLine.ask (s : State) : ScriptLine → Option (Transaction × List ScriptLine)
  | .op t => some (t, [])
  | .run =>
    match s.rxMode with
    | .idle => none
    | .scan => some (.internal, [.run])
  | .drain =>
    match s.rxq with
    | []     => none
    | _ :: _ => some (.rxResultOut, [.drain])
  | .emitAll =>
    match s.txQ with
    | []     => none
    | _ :: _ => some (.txByteOut, [.emitAll])
  | .loopback =>
    match s.txQ with
    | []     => none
    | b :: _ => some (.txByteOut, [.op (.rxByteIn b), .run, .loopback])
  | .runTaking =>
    match s.rxMode, s.rxq with
    | .idle, _      => none
    | .scan, _ :: _ => some (.rxResultOut, [.runTaking])
    | .scan, []     => some (.internal, [.runTaking])

/-- One step of a script: its first line is over, or waits, or performs one operation. -/
def scriptStep (lines : List ScriptLine) (s : State) :
    Host.Outcome (List ScriptLine × State) Fault Refusal :=
  match lines with
  | [] => .next ([], s)
  | l :: ls =>
    match l.ask s with
    | none           => .next (ls, s)
    | some (t, rest) =>
      if s.ready t then
        match exec (decodeTransaction t) s with
        | .next s'   => .next (rest ++ ls, s')
        | .fault r   => .fault r
        | .refused r => .refused r
      else .next (l :: ls, s)

/-- `k` steps of a script. A script that is over stays so, and so does one that waits while no other agent acts. -/
def runScript : Nat → List ScriptLine → State → Host.Outcome (List ScriptLine × State) Fault Refusal
  | 0, lines, s     => .next (lines, s)
  | k + 1, lines, s =>
    match scriptStep lines s with
    | .next (lines', s') => runScript k lines' s'
    | .fault r           => .fault r
    | .refused r         => .refused r

/-- `feed b0 ... bk-1`: for each byte `push`, then `run` (R62, R99). -/
def feed (bytes : List Byte) : List ScriptLine := bytes.flatMap (fun b => [.op (.rxByteIn b), .run])

/-- `send`: `submit`, then `emit` while `tx_q ≠ []`. After a refused `submit` there is nothing to emit (R104), so the
condition on the status is in that (R62). -/
def send (record : BitVec 102) : List ScriptLine := [.op (.txFrameIn record), .emitAll]

/-- `feed` in a script that takes every record as soon as it is there, and so waits at no depth of the queue (R62, R94,
R126). -/
def feedTaking (bytes : List Byte) : List ScriptLine :=
  bytes.flatMap (fun b => [.op (.rxByteIn b), .runTaking]) ++ [.drain]

end Sys2Proof.Machine
end

