-- ==== Sys2Proof/Machine/Source.lean ====
section
/-! DEFINITION. The source's own decoder (spec/41_decoder.md R74): a whole chunk is appended, then steps 2 to 8 run on the
buffer. The block does not use it; statements about chunking (R75, R95, R99) compare the block with it. -/

namespace Sys2Proof.Machine

/-- The one FramingError value of the decoder: one byte skipped, the header (R91). -/
def badEndMarkerRecord : Record := .framingError .badEndMarker 1 hdrByte

/-- Steps 2 to 8 of R74 with a bound on the number of passes: the records in order and the buffer at the stop. The stop
conditions are those of steps 2, 3 and 6 (spec/90_conflicts.md C9). -/
def sourceLoop : Nat → List Byte → List Record × List Byte
  | 0, buffer => ([], buffer)
  | passes + 1, buffer =>
    match buffer.findIdx? (· == hdrByte) with
    | none => ([], [])
    | some k =>
      let aligned := buffer.drop k
      if aligned.length < 2 then ([], aligned)
      else
        let t := aligned.getD 1 0#8
        let minLen := 2 + (if typeExt t then 4 else 2) + (typeLen t).toNat + 1
        if aligned.length < minLen then ([], aligned)
        else if aligned.getD (minLen - 1) 0#8 = endByte ∧ aligned.getD 0 0#8 = hdrByte then
          let (records, left) := sourceLoop passes (aligned.drop minLen)
          (frameRecord (typeExt t) (typeRtr t) (typeLen t) aligned :: records, left)
        else
          let (records, left) := sourceLoop passes (aligned.drop 1)
          (badEndMarkerRecord :: records, left)

/-- `feed(chunk)` on a buffer (R74). Every pass but the last removes a byte, so the bound is never reached (R92). -/
def sourceFeed (buffer chunk : List Byte) : List Record × List Byte :=
  sourceLoop ((buffer ++ chunk).length + 1) (buffer ++ chunk)

/-- Several chunks fed in order: all their records, and the buffer after the last (R95). -/
def sourceFeedChunks (buffer : List Byte) : List (List Byte) → List Record × List Byte
  | [] => ([], buffer)
  | chunk :: chunks =>
    let (records, left) := sourceFeed buffer chunk
    let (more, last) := sourceFeedChunks left chunks
    (records ++ more, last)

end Sys2Proof.Machine
end

