-- ==== Sys2Proof/Safety.lean ====
section
/-! DEFINITION. The invariants of the block and the end of a run, in the terms the statements use (spec/10_state.md R14 to
R19, spec/70_reset_and_hazards.md R131). -/

namespace Sys2Proof.Machine

/-- The CanFrame invariant of R3, which the encoder enforces (R65). -/
def DescriptorInRange (d : Descriptor) : Prop :=
  d.len.toNat ≤ 8 ∧ d.id.toNat < (if d.ext then 2 ^ 29 else 2 ^ 11)

/-- The record that the round trip gives for a descriptor (R72), with zero lanes from `len` on (R54). -/
def descriptorRecord (d : Descriptor) : Record :=
  .frame { id := d.id, ext := d.ext, rtr := d.rtr, len := d.len,
           data := d.data.take d.len.toNat ++ List.replicate (15 - d.len.toNat) 0#8 }

/-- The three shapes of `rx_buf` in IDLE (R19). -/
def WaitingBuffer : List Byte → Prop
  | []             => True
  | [b]            => b = hdrByte
  | h :: t :: rest => h = hdrByte ∧ rest.length + 2 < typeByteLen t

/-- The shape of a record: fifteen lanes, zero from `len` on (R54), an identifier that fits its field (R47); and the one
FramingError value (R91, R107). -/
def Record.WellFormed : Record → Prop
  | .frame f =>
    f.data.length = 15 ∧ (∀ k, f.len.toNat ≤ k → k < 15 → f.data[k]? = some 0#8) ∧
      (f.ext = false → f.id.toNat < 2 ^ 16)
  | .framingError reason count skipped => reason = .badEndMarker ∧ count = 1 ∧ skipped = hdrByte

/-- `tx_q` is empty or what is left of an accepted envelope (R15). -/
def PendingEnvelope (q : List Byte) : Prop :=
  q = [] ∨ ∃ (d : Descriptor) (e : List Byte) (k : Nat),
    d.WellFormed ∧ encodeFrame d = .ok e ∧ k < e.length ∧ q = e.drop k

/-- What every step keeps: R14 and R15 for `tx_q`, R16 and R19 for `rx_buf`, R18 for `rxq`, and the shape of its
records. -/
structure State.Inv (s : State) : Prop where
  txQ_pending   : PendingEnvelope s.txQ
  txQ_bound     : s.txQ.length ≤ 15
  rxBuf_bound   : s.rxBuf.length ≤ 22
  rxBuf_waiting : s.rxMode = .idle → WaitingBuffer s.rxBuf
  rxq_bound     : s.rxq.length ≤ Config.rxqDepth
  rxq_records   : ∀ r ∈ s.rxq, r.WellFormed

/-- A run is over: nothing left to emit, no decode attempt pending, every record taken (R131). -/
def State.Quiescent (s : State) : Prop := s.txQ = [] ∧ s.rxMode = .idle ∧ s.rxq = []

end Sys2Proof.Machine
end

