-- ==== Sys2Proof/Certificates/Slice0/Obligations.lean ====
section
/-! DEFINITION. The statements for the provers. Each docstring names the rule of spec/ it comes from. In every statement the
next state is written `{ s with … }`, so that it is the frame too: every field not named is unchanged. The lists `offers`,
`statusOut`, `bytesOut` and `resultsOut` stand for the agents outside the block (log entries 1 and 4). -/

open Sys2Proof Sys2Proof.Machine

/-! ### Reset -/

/-- R119: the four elements at power-on. -/
def Obligations.ResetStateIsCleared : Prop :=
  State.reset.txQ = [] ∧ State.reset.rxBuf = [] ∧ State.reset.rxMode = .idle ∧ State.reset.rxq = []

/-- R118: RESET completes in every state and clears the four elements. -/
def Obligations.ResetClearsEveryElement : Prop :=
  ∀ s : State, ∃ t, exec .reset s = .next t ∧ t.txQ = [] ∧ t.rxBuf = [] ∧ t.rxMode = .idle ∧ t.rxq = []

/-- The model's choice (log entry 4): what agents offer and have received lies outside the block, and RESET leaves it. -/
def Obligations.ResetKeepsTheAgentsLists : Prop :=
  ∀ s t : State, exec .reset s = .next t →
    t.offers = s.offers ∧ t.statusOut = s.statusOut ∧ t.bytesOut = s.bytesOut ∧ t.resultsOut = s.resultsOut

/-! ### The TX half -/

/-- R64, R68: a descriptor in range loads its whole envelope: header, type byte (R42), identifier most significant byte
first (R46), the `len` payload bytes in order, end marker; the status is OK. -/
def Obligations.TxSubmitLoadsEnvelope : Prop :=
  ∀ (d : Descriptor) (s : State), s.txQ = [] → d.len.toNat ≤ 8 →
    d.id.toNat < (if d.ext then 2 ^ 29 else 2 ^ 11) →
    exec (.txSubmit d) s = .next
      { s with
        txQ :=
          [0xAA#8, BitVec.ofNat 8 (192 + 32 * d.ext.toNat + 16 * d.rtr.toNat + d.len.toNat)] ++
          (if d.ext then
            [BitVec.ofNat 8 (d.id.toNat / 2 ^ 24), BitVec.ofNat 8 (d.id.toNat / 2 ^ 16),
             BitVec.ofNat 8 (d.id.toNat / 2 ^ 8), BitVec.ofNat 8 d.id.toNat]
           else [BitVec.ofNat 8 (d.id.toNat / 2 ^ 8), BitVec.ofNat 8 d.id.toNat]) ++
          d.data.take d.len.toNat ++ [0x55#8],
        statusOut := s.statusOut ++ [.ok] }

/-- R103, R109: more than 8 payload bytes give PayloadTooLong, whatever the identifier and flags; nothing else changes. -/
def Obligations.TxSubmitPayloadTooLong : Prop :=
  ∀ (d : Descriptor) (s : State), s.txQ = [] → d.len.toNat > 8 →
    exec (.txSubmit d) s = .next { s with statusOut := s.statusOut ++ [.payloadTooLong] }

/-- R105: a length in range with an identifier out of range gives IdentifierOutOfRange; nothing else changes. -/
def Obligations.TxSubmitIdentifierOutOfRange : Prop :=
  ∀ (d : Descriptor) (s : State), s.txQ = [] → d.len.toNat ≤ 8 →
    ((d.ext = false ∧ d.id.toNat ≥ 2048) ∨ (d.ext = true ∧ d.id.toNat ≥ 536870912)) →
    exec (.txSubmit d) s = .next { s with statusOut := s.statusOut ++ [.identifierOutOfRange] }

/-- R104: a TX_SUBMIT that returns a ValidationError status changes no state element, emits no byte, and leaves the next
TX_SUBMIT enabled at once. -/
def Obligations.RefusedSubmitChangesNothing : Prop :=
  ∀ (d : Descriptor) (s t : State) (st : TxStatus), exec (.txSubmit d) s = .next t →
    t.statusOut = s.statusOut ++ [st] → st ≠ .ok →
    t = { s with statusOut := s.statusOut ++ [st] } ∧ t.txQ = [] ∧ ∀ record, t.ready (.txFrameIn record) = true

/-- R65: the encoder accepts exactly the descriptors that satisfy the CanFrame invariant, and which error the others get. -/
def Obligations.EncodeAcceptsExactlyTheInvariant : Prop :=
  ∀ d : Descriptor,
    ((∃ e, encodeFrame d = .ok e) ↔ DescriptorInRange d) ∧
    (encodeFrame d = .err .payloadTooLong ↔ d.len.toNat > 8) ∧
    (encodeFrame d = .err .identifierOutOfRange ↔
      d.len.toNat ≤ 8 ∧ ((d.ext = false ∧ d.id.toNat ≥ 2 ^ 11) ∨ (d.ext = true ∧ d.id.toNat ≥ 2 ^ 29)))

/-- R66: a remote frame is encoded like the data frame but for bit 4 of the type byte; its payload is kept. -/
def Obligations.RemoteFrameDiffersInOneBit : Prop :=
  ∀ (d : Descriptor) (e : List Byte), encodeFrame { d with rtr := false } = .ok e →
    encodeFrame { d with rtr := true } = .ok (e.set 1 (e.getD 1 0#8 ||| 0x10#8)) ∧
    (e.getD 1 0#8).getLsbD 4 = false

/-- R67: lanes at and above `len` are not read. -/
def Obligations.UnusedLanesAreNotRead : Prop :=
  ∀ (d : Descriptor) (lanes : List Byte), lanes.take d.len.toNat = d.data.take d.len.toNat →
    encodeFrame { d with data := lanes } = encodeFrame d

/-- R71: the structure of every envelope the encoder builds. -/
def Obligations.EnvelopeStructure : Prop :=
  ∀ (d : Descriptor) (e : List Byte), d.WellFormed → encodeFrame d = .ok e →
    let w := if d.ext then 4 else 2
    let t := (e.getD 1 0#8).toNat
    e.length = 3 + w + d.len.toNat ∧ e[0]? = some 0xAA#8 ∧ e[e.length - 1]? = some 0x55#8 ∧
    t / 64 = 3 ∧ t / 32 % 2 = d.ext.toNat ∧ t / 16 % 2 = d.rtr.toNat ∧ t % 16 = d.len.toNat ∧ d.len.toNat ≤ 8 ∧
    ((e.drop 2).take w).foldl (fun v b => v * 256 + b.toNat) 0 = d.id.toNat

/-- R69: TX_EMIT delivers and removes the first byte. -/
def Obligations.TxEmitDeliversFirstByte : Prop :=
  ∀ (s : State) (b : Byte) (q : List Byte), s.txQ = b :: q →
    exec .txEmit s = .next { s with txQ := q, bytesOut := s.bytesOut ++ [b] }

/-- R124: the hold on TX_SUBMIT is lifted after at most 15 TX_EMIT, which deliver what stood in `tx_q` in order. -/
def Obligations.TxHoldLiftedWithinFifteen : Prop :=
  ∀ s : State, s.Inv →
    runInstrs (List.replicate 15 .txEmit) s = .next { s with txQ := [], bytesOut := s.bytesOut ++ s.txQ }

/-- R35: the bytes delivered and still to be delivered grow by whole envelopes only, each accepted when nothing of an
earlier one is left; the bytes of two envelopes never interleave. RESET apart, no byte is lost. -/
def Obligations.TxStreamIsWholeEnvelopes : Prop :=
  ∀ s t : State, s.turn ≠ some .rst → step s = .next t →
    t.bytesOut ++ t.txQ = s.bytesOut ++ s.txQ ∨
    ∃ (record : BitVec 102) (e : List Byte), s.turn = some (.txFrameIn record) ∧ s.txQ = [] ∧
      encodeFrame (Descriptor.unpack record) = .ok e ∧ t.txQ = e ∧ t.bytesOut = s.bytesOut

/-! ### RX_PUSH, RX_STEP and RX_POP -/

/-- R76: RX_PUSH appends the byte and starts decoding. -/
def Obligations.RxPushAppendsByte : Prop :=
  ∀ (b : Byte) (s : State), s.rxMode = .idle →
    exec (.rxPush b) s = .next { s with rxBuf := s.rxBuf ++ [b], rxMode := .scan }

/-- R78: with no 0xAA in the buffer, RX_STEP discards it, ends the run and emits nothing. -/
def Obligations.RxStepDiscardsWithoutHeader : Prop :=
  ∀ s : State, s.rxMode = .scan → 0xAA#8 ∉ s.rxBuf →
    exec .rxStep s = .next { s with rxBuf := [], rxMode := .idle }

/-- R79: the bytes before the first 0xAA are removed in the same step and leave no record: the step does what it does
from the buffer without them. (It is enabled: there is room, or the attempt emits nothing, R87.) -/
def Obligations.RxStepDropsPrefix : Prop :=
  ∀ (s : State) (front rest : List Byte), s.rxMode = .scan → 0xAA#8 ∉ front → s.rxBuf = front ++ 0xAA#8 :: rest →
    (s.rxq.length < Config.rxqDepth ∨
      ∀ t tail, rest = t :: tail → tail.length + 2 < 3 + (if t.getLsbD 5 then 4 else 2) + t.toNat % 16) →
    exec .rxStep s = exec .rxStep { s with rxBuf := 0xAA#8 :: rest }

/-- R80: a lone header ends the run and emits nothing. -/
def Obligations.RxStepLoneHeaderWaits : Prop :=
  ∀ (s : State) (front : List Byte), s.rxMode = .scan → 0xAA#8 ∉ front → s.rxBuf = front ++ [0xAA#8] →
    exec .rxStep s = .next { s with rxBuf := [0xAA#8], rxMode := .idle }

/-- R83: with fewer than `n` bytes from the header on, the run ends and nothing is emitted. -/
def Obligations.RxStepIncompleteWaits : Prop :=
  ∀ (s : State) (front : List Byte) (t : Byte) (rest : List Byte), s.rxMode = .scan → 0xAA#8 ∉ front →
    s.rxBuf = front ++ 0xAA#8 :: t :: rest →
    rest.length + 2 < 3 + (if t.getLsbD 5 then 4 else 2) + t.toNat % 16 →
    exec .rxStep s = .next { s with rxBuf := 0xAA#8 :: t :: rest, rxMode := .idle }

/-- R85: a valid candidate becomes a Frame record and is removed; the decoder stays in SCAN. -/
def Obligations.RxStepEmitsFrame : Prop :=
  ∀ (s : State) (front : List Byte) (t : Byte) (ids payload rest : List Byte), s.rxMode = .scan →
    s.rxq.length < Config.rxqDepth → 0xAA#8 ∉ front →
    ids.length = (if t.getLsbD 5 then 4 else 2) → payload.length = t.toNat % 16 →
    s.rxBuf = front ++ [0xAA#8, t] ++ ids ++ payload ++ [0x55#8] ++ rest →
    exec .rxStep s = .next
      { s with
        rxBuf := rest,
        rxq := s.rxq ++ [.frame
          { id := BitVec.ofNat 32 (ids.foldl (fun v b => v * 256 + b.toNat) 0),
            ext := t.getLsbD 5, rtr := t.getLsbD 4, len := BitVec.ofNat 4 (t.toNat % 16),
            data := payload ++ List.replicate (15 - payload.length) 0#8 }] }

/-- R86: a complete candidate whose last byte is not 0x55 gives BadEndMarker with count 1 and the skipped header, and
loses exactly one byte; the decoder stays in SCAN. -/
def Obligations.RxStepRejectsBadEnd : Prop :=
  ∀ (s : State) (front : List Byte) (t : Byte) (body : List Byte) (c : Byte) (rest : List Byte), s.rxMode = .scan →
    s.rxq.length < Config.rxqDepth → 0xAA#8 ∉ front →
    body.length + 3 = 3 + (if t.getLsbD 5 then 4 else 2) + t.toNat % 16 → c ≠ 0x55#8 →
    s.rxBuf = front ++ [0xAA#8, t] ++ body ++ [c] ++ rest →
    exec .rxStep s = .next
      { s with
        rxBuf := [t] ++ body ++ [c] ++ rest,
        rxq := s.rxq ++ [.framingError .badEndMarker 1#5 0xAA#8] }

/-- R87: in SCAN, RX_STEP emits a record exactly when there are at least `n` bytes from the first header on. Where it would
emit and the queue is full it waits, its state unchanged; in every other state it does its step. -/
def Obligations.RxStepEmitsExactlyWhenComplete : Prop :=
  ∀ s : State, s.rxMode = .scan →
    let due := ∃ (front : List Byte) (t : Byte) (rest : List Byte), 0xAA#8 ∉ front ∧
      s.rxBuf = front ++ 0xAA#8 :: t :: rest ∧ 3 + (if t.getLsbD 5 then 4 else 2) + t.toNat % 16 ≤ rest.length + 2
    (due → Config.rxqDepth ≤ s.rxq.length → exec .rxStep s = .next s) ∧
    (due → s.rxq.length < Config.rxqDepth →
      ∃ t r, exec .rxStep s = .next t ∧ t.rxq = s.rxq ++ [r] ∧ t.rxMode = .scan ∧ t.rxBuf.length < s.rxBuf.length) ∧
    (¬ due → ∃ t, exec .rxStep s = .next t ∧ t.rxq = s.rxq ∧ t.rxMode = .idle)

/-- R89: RX_POP delivers and removes the oldest record. -/
def Obligations.RxPopDeliversOldest : Prop :=
  ∀ (s : State) (r : Record) (q : List Record), s.rxq = r :: q →
    exec .rxPop s = .next { s with rxq := q, resultsOut := s.resultsOut ++ [r] }

/-! ### Enable conditions and waiting -/

/-- R60: when each transaction is enabled. RX_STEP, R87: in SCAN, unless a record is due (at least `n` bytes from the first
0xAA on) and the queue is full. -/
def Obligations.EnableConditions : Prop :=
  ∀ (s : State) (record : BitVec 102) (b : Byte),
    (s.ready (.txFrameIn record) = true ↔ s.txQ = []) ∧
    (s.ready .txByteOut = true ↔ s.txQ ≠ []) ∧
    (s.ready (.rxByteIn b) = true ↔ s.rxMode = .idle) ∧
    (s.ready .rxResultOut = true ↔ s.rxq ≠ []) ∧
    s.ready .rst = true ∧
    (s.ready .internal = true ↔
      s.rxMode = .scan ∧
      (s.rxq.length < Config.rxqDepth ∨
        ¬ ∃ (front : List Byte) (ty : Byte) (rest : List Byte), 0xAA#8 ∉ front ∧ s.rxBuf = front ++ 0xAA#8 :: ty :: rest ∧
          3 + (if ty.getLsbD 5 then 4 else 2) + ty.toNat % 16 ≤ rest.length + 2))

/-- The model's choice (log entry 2): a transaction that is not enabled waits, and the state is unchanged. -/
def Obligations.NotEnabledWaits : Prop :=
  ∀ (s : State) (t : Transaction), s.ready t = false → exec (decodeTransaction t) s = .next s

/-! ### The four envelope kinds, as the decoder runs them (R55; log entry 7) -/

/-- R83: ENV_STD_DATA, ENV_STD_REMOTE, ENV_EXT_DATA and ENV_EXT_REMOTE wait for more bytes while the candidate is
incomplete: only `rx_mode` changes. -/
def Obligations.EnvelopeKindsWaitForBytes : Prop :=
  ∀ (mark : BitVec 2) (len : BitVec 4) (i : Instr) (ext rtr : Bool) (s : State),
    (i, ext, rtr) ∈ [(.envStdData mark len, false, false), (.envStdRemote mark len, false, true),
                     (.envExtData mark len, true, false), (.envExtRemote mark len, true, true)] →
    s.rxMode = .scan → s.rxBuf.length < 3 + (if ext then 4 else 2) + len.toNat →
    exec i s = .next { s with rxMode := .idle }

/-- R85, R88: each kind turns a valid candidate at the front of the buffer into a Frame record with the kind's flags, the
identifier of its own width and the payload, remote or not, and removes it. The type byte `t` is not read again. -/
def Obligations.EnvelopeKindsDecodeFrame : Prop :=
  ∀ (mark : BitVec 2) (len : BitVec 4) (i : Instr) (ext rtr : Bool) (s : State) (t : Byte)
    (ids payload rest : List Byte),
    (i, ext, rtr) ∈ [(.envStdData mark len, false, false), (.envStdRemote mark len, false, true),
                     (.envExtData mark len, true, false), (.envExtRemote mark len, true, true)] →
    s.rxMode = .scan → s.rxq.length < Config.rxqDepth →
    ids.length = (if ext then 4 else 2) → payload.length = len.toNat →
    s.rxBuf = [0xAA#8, t] ++ ids ++ payload ++ [0x55#8] ++ rest →
    exec i s = .next
      { s with
        rxBuf := rest,
        rxq := s.rxq ++ [.frame
          { id := BitVec.ofNat 32 (ids.foldl (fun v b => v * 256 + b.toNat) 0), ext := ext, rtr := rtr, len := len,
            data := payload ++ List.replicate (15 - payload.length) 0#8 }] }

/-- R84, R86: each kind rejects a complete candidate whose byte at offset `n - 1` is not 0x55 or whose first byte is not
0xAA: one BadEndMarker record with the skipped first byte, and that byte removed. -/
def Obligations.EnvelopeKindsRejectBadEnd : Prop :=
  ∀ (mark : BitVec 2) (len : BitVec 4) (i : Instr) (ext rtr : Bool) (s : State) (h c : Byte) (body rest : List Byte),
    (i, ext, rtr) ∈ [(.envStdData mark len, false, false), (.envStdRemote mark len, false, true),
                     (.envExtData mark len, true, false), (.envExtRemote mark len, true, true)] →
    s.rxMode = .scan → s.rxq.length < Config.rxqDepth →
    body.length + 2 = 3 + (if ext then 4 else 2) + len.toNat → (c ≠ 0x55#8 ∨ h ≠ 0xAA#8) →
    s.rxBuf = [h] ++ body ++ [c] ++ rest →
    exec i s = .next
      { s with rxBuf := body ++ [c] ++ rest, rxq := s.rxq ++ [.framingError .badEndMarker 1#5 h] }

/-- R87: each kind waits, the state unchanged, while a record is due and the queue is full; and outside SCAN (the model's
choice, log entry 7). -/
def Obligations.EnvelopeKindsWaitForRoom : Prop :=
  ∀ (mark : BitVec 2) (len : BitVec 4) (i : Instr) (ext rtr : Bool) (s : State),
    (i, ext, rtr) ∈ [(.envStdData mark len, false, false), (.envStdRemote mark len, false, true),
                     (.envExtData mark len, true, false), (.envExtRemote mark len, true, true)] →
    (s.rxMode = .idle ∨
      (3 + (if ext then 4 else 2) + len.toNat ≤ s.rxBuf.length ∧ Config.rxqDepth ≤ s.rxq.length)) →
    exec i s = .next s

/-- R81: on a buffer with a header and a type byte, RX_STEP drops the prefix and runs the envelope kind that the type byte
decodes to. (It is enabled: there is room, or the attempt emits nothing, R87.) -/
def Obligations.RxStepRunsTheEnvelopeKind : Prop :=
  ∀ (s : State) (front : List Byte) (t : Byte) (rest : List Byte), s.rxMode = .scan → 0xAA#8 ∉ front →
    s.rxBuf = front ++ 0xAA#8 :: t :: rest →
    (s.rxq.length < Config.rxqDepth ∨ rest.length + 2 < 3 + (if t.getLsbD 5 then 4 else 2) + t.toNat % 16) →
    exec .rxStep s = exec (decodeTypeByte t) { s with rxBuf := 0xAA#8 :: t :: rest }

/-! ### Encodings -/

/-- R43, R55: which kind and which operands a type byte stands for; bits 7:6 select nothing. -/
def Obligations.KindFromTypeByteBits : Prop :=
  ∀ t : Byte,
    decodeTypeByte t =
      (let mark := BitVec.ofNat 2 (t.toNat / 64)
       let len := BitVec.ofNat 4 (t.toNat % 16)
       match t.toNat / 16 % 4 with
       | 0 => .envStdData mark len
       | 1 => .envStdRemote mark len
       | 2 => .envExtData mark len
       | _ => .envExtRemote mark len)

/-- R45: the envelope length a type byte implies, and its extremes for each `E`. -/
def Obligations.TypeByteLengths : Prop :=
  ∀ t : Byte,
    typeByteLen t = 3 + (if t.toNat / 32 % 2 = 0 then 2 else 4) + t.toNat % 16 ∧
    (t.toNat / 32 % 2 = 0 → 5 ≤ typeByteLen t ∧ typeByteLen t ≤ 20) ∧
    (t.toNat / 32 % 2 = 1 → 7 ≤ typeByteLen t ∧ typeByteLen t ≤ 22)

/-- Words written out from R41, R50 and R60 decode to the instructions they stand for. -/
def Obligations.SpecWordsDecode : Prop :=
  decodeCode (.typeByte 0b11000010#8) = .envStdData 0b11#2 2#4 ∧
  decodeCode (.typeByte 0b10000010#8) = .envStdData 0b10#2 2#4 ∧
  decodeCode (.typeByte 0b01010101#8) = .envStdRemote 0b01#2 5#4 ∧
  decodeCode (.typeByte 0b10101010#8) = .envExtData 0b10#2 10#4 ∧
  decodeCode (.typeByte 0b11110011#8) = .envExtRemote 0b11#2 3#4 ∧
  decodeCode (.offered (.txFrameIn 0x00000000000000804800000123#102)) =
    .txSubmit { id := 0x123#32, ext := false, rtr := false, len := 2#4, data := [1, 2, 0, 0, 0, 0, 0, 0] }

/-- Decode and encode agree: the word of a well-formed instruction decodes to it, every operand at every value. -/
def Obligations.DecodeEncodeAgree : Prop :=
  ∀ i : Instr, i.wellFormed = true → decodeCode (encode i) = i

/-- Encode and decode agree: every word is the encoding of what it decodes to, so no bit of a word is dropped. -/
def Obligations.EncodeDecodeAgree : Prop :=
  ∀ c : Code, encode (decodeCode c) = c

/-- Every word decodes to a well-formed instruction: no word is illegal (R57, R58). -/
def Obligations.DecodedIsWellFormed : Prop :=
  ∀ c : Code, (decodeCode c).wellFormed = true

/-- R55, R60: every word belongs to exactly one row of the opcode table, and its instruction is that row's. -/
def Obligations.EveryWordHasOneRow : Prop :=
  ∀ c : Code, (opcodeTable.filter (fun r => r.fits c)).map (fun r => r.mnemonic) = [(decodeCode c).mnemonic]

/-- R50: where each field of a descriptor stands among the 102 bits. -/
def Obligations.DescriptorLayout : Prop :=
  ∀ d : Descriptor, d.WellFormed →
    let w := d.pack.toNat
    w % 2 ^ 32 = d.id.toNat ∧ w / 2 ^ 32 % 2 = d.ext.toNat ∧ w / 2 ^ 33 % 2 = d.rtr.toNat ∧
    w / 2 ^ 34 % 16 = d.len.toNat ∧
    ∀ k < 8, w / 2 ^ (38 + 8 * k) % 256 = (d.data.getD k 0#8).toNat

/-- R52, R53: where each field of a result record stands among the 159 bits; the bits of a FramingError above `skipped`
are zero; its reason is 1 for BadEndMarker and 2 for NoHeaderFound, and no reason has the reserved codes 0 and 3. -/
def Obligations.RecordLayout : Prop :=
  (∀ f : FrameRecord, f.data.length = 15 →
    let w := (Record.frame f).pack.toNat
    w % 2 = 0 ∧ w / 2 % 2 ^ 32 = f.id.toNat ∧ w / 2 ^ 33 % 2 = f.ext.toNat ∧ w / 2 ^ 34 % 2 = f.rtr.toNat ∧
    w / 2 ^ 35 % 16 = f.len.toNat ∧
    ∀ k < 15, w / 2 ^ (39 + 8 * k) % 256 = (f.data.getD k 0#8).toNat) ∧
  (∀ (reason : FramingReason) (count : BitVec 5) (skipped : Byte),
    let w := (Record.framingError reason count skipped).pack.toNat
    w % 2 = 1 ∧ w / 2 % 4 = (match reason with | .badEndMarker => 1 | .noHeaderFound => 2) ∧
    w / 2 ^ 3 % 32 = count.toNat ∧ w / 2 ^ 8 % 256 = skipped.toNat ∧ w / 2 ^ 16 = 0) ∧
  FramingReason.badEndMarker.code = 1#2 ∧ FramingReason.noHeaderFound.code = 2#2 ∧
  ∀ reason : FramingReason, reason.code ≠ 0#2 ∧ reason.code ≠ 3#2

/-- R52, R54: a packed record reads back as itself, so two records with the same 159 bits are equal. The reader
`Record.unpack` is the model's own, and for records that the block never holds (a one in a lane at or above `len`,
NoHeaderFound, and the like) the statement says the model's choice (log entry 11). -/
def Obligations.RecordUnpackPack : Prop :=
  ∀ r : Record, (∀ f, r = .frame f → f.data.length = 15) → Record.unpack r.pack = some r

/-- R51: the status codes; 3 is reserved and no status has it. The clauses about `TxStatus.ofCode`, a reader of codes that
the block does not have, are the model's choice (log entry 11, spec/93_implementation_defined.md I2): the reader gives
back the status of a code and refuses 3. -/
def Obligations.StatusCodes : Prop :=
  TxStatus.ok.code = 0 ∧ TxStatus.payloadTooLong.code = 1 ∧ TxStatus.identifierOutOfRange.code = 2 ∧
  (∀ st : TxStatus, st.code ≠ 3 ∧ TxStatus.ofCode st.code = some st) ∧ TxStatus.ofCode 3 = none

/-! ### The step -/

/-- R7, R8: the step runs, whole, the instruction that the first enabled offer decodes to, the offer taken from the list;
where no offer is enabled it runs RX_STEP, the turn of the decoder inside the block (log entries 1 and 3). -/
def Obligations.StepRunsTheDecodedInstruction : Prop :=
  (∀ (s : State) (before : List Transaction) (t : Transaction) (behind : List Transaction),
    s.offers = before ++ t :: behind → (∀ u ∈ before, s.ready u = false) → s.ready t = true →
    step s = exec (decodeTransaction t) { s with offers := before ++ behind }) ∧
  (∀ s : State, (∀ u ∈ s.offers, s.ready u = false) → step s = exec .rxStep s)

/-- R8: within one agent, operations are taken in the agent's own order: no offer that the step passes over is at the
interface of the one it takes. -/
def Obligations.AgentOrderKept : Prop :=
  ∀ (s : State) (t : Transaction), s.turn = some t →
    ∃ before behind, s.offers = before ++ t :: behind ∧ (∀ u ∈ before, u.port ≠ t.port) ∧
      s.granted = { s with offers := before ++ behind }

/-- No operation and no step stops the block: DEDUCED from R101 and R113 (log entry 10). For an operation that is not
enabled, to which the spec gives no step, the next state is the model's choice (log entry 2): the state unchanged. -/
def Obligations.BlockNeverStops : Prop :=
  (∀ (i : Instr) (s : State), ∃ t, exec i s = .next t) ∧ ∀ s : State, ∃ t, step s = .next t

/-! ### Invariants and whole-block rules -/

/-- The reset state has the invariant of StepKeepsTheInvariant. -/
def Obligations.ResetHasTheInvariant : Prop := State.reset.Inv

/-- R14, R15, R16, R18, R19 and R91: every step keeps them, from every state that has them. -/
def Obligations.StepKeepsTheInvariant : Prop :=
  ∀ s t : State, s.Inv → step s = .next t → t.Inv

/-- R1, R36: an operation of one half writes nothing of the other half, and what it does to its own half depends on its own
half alone. -/
def Obligations.HalvesDoNotInterfere : Prop :=
  ∀ (i : Instr) (s s' t t' : State), exec i s = .next t → exec i s' = .next t' →
    ((∃ d, i = .txSubmit d) ∨ i = .txEmit →
      (t.rxBuf = s.rxBuf ∧ t.rxMode = s.rxMode ∧ t.rxq = s.rxq ∧ t.resultsOut = s.resultsOut) ∧
      (s.txQ = s'.txQ → s.statusOut = s'.statusOut → s.bytesOut = s'.bytesOut →
        t.txQ = t'.txQ ∧ t.statusOut = t'.statusOut ∧ t.bytesOut = t'.bytesOut)) ∧
    ((∃ b, i = .rxPush b) ∨ i = .rxStep ∨ i = .rxPop →
      (t.txQ = s.txQ ∧ t.statusOut = s.statusOut ∧ t.bytesOut = s.bytesOut) ∧
      (s.rxBuf = s'.rxBuf → s.rxMode = s'.rxMode → s.rxq = s'.rxq → s.resultsOut = s'.resultsOut →
        t.rxBuf = t'.rxBuf ∧ t.rxMode = t'.rxMode ∧ t.rxq = t'.rxq ∧ t.resultsOut = t'.resultsOut))

/-- R34, R110: the records taken and still queued only ever grow at their end, by at most one record a step. RESET apart,
none is lost. -/
def Obligations.RecordsAppearInOrder : Prop :=
  ∀ s t : State, s.turn ≠ some .rst → step s = .next t →
    ∃ fresh : List Record, fresh.length ≤ 1 ∧ t.resultsOut ++ t.rxq = s.resultsOut ++ s.rxq ++ fresh

/-- R91, R107: every FramingError that a step emits, at the end of the queue, is BadEndMarker with count 1 and the skipped
header; NoHeaderFound is never emitted. (RecordsAppearInOrder says that records appear there alone.) -/
def Obligations.OnlyBadEndMarkerIsEmitted : Prop :=
  ∀ (s t : State) (reason : FramingReason) (count : BitVec 5) (skipped : Byte), step s = .next t →
    t.rxq = s.rxq ++ [.framingError reason count skipped] →
    reason = .badEndMarker ∧ count = 1#5 ∧ skipped = 0xAA#8

/-- R92: from SCAN, at most `len(rx_buf) + 1` RX_STEP reach IDLE, or a full queue at which the decoder waits. -/
def Obligations.RunEndsWithinBufferLengthPlusOne : Prop :=
  ∀ s : State, s.rxMode = .scan →
    ∃ k ≤ s.rxBuf.length + 1, ∃ t, runInstrs (List.replicate k .rxStep) s = .next t ∧
      (t.rxMode = .idle ∨ (Config.rxqDepth ≤ t.rxq.length ∧ exec .rxStep t = .next t))

/-- R93: one RX_PUSH followed by its RX_STEP operations emits at most 22 records. -/
def Obligations.OnePushEmitsAtMostTwentyTwo : Prop :=
  ∀ (b : Byte) (k : Nat) (s t : State), s.Inv → s.rxMode = .idle →
    runInstrs (.rxPush b :: List.replicate k .rxStep) s = .next t →
    ∃ fresh : List Record, t.rxq = s.rxq ++ fresh ∧ fresh.length ≤ 22

/-- R96: a stream with no byte 0xAA emits no record and leaves the buffer empty: its `feed` ends in the state it began
in. -/
def Obligations.NoHeaderStreamLeavesNoTrace : Prop :=
  ∀ (bytes : List Byte) (s : State), s.rxBuf = [] → s.rxMode = .idle → 0xAA#8 ∉ bytes →
    ∃ k, runScript k (feed bytes) s = .next ([], s)

/-- R100: in IDLE the pending bytes stay as they are at every step but an RX_PUSH or a RESET. -/
def Obligations.PendingBytesStay : Prop :=
  ∀ s t : State, s.rxMode = .idle → (∀ b, s.turn ≠ some (.rxByteIn b)) → s.turn ≠ some .rst → step s = .next t →
    t.rxBuf = s.rxBuf ∧ t.rxMode = .idle ∧ t.rxq.length ≤ s.rxq.length

/-! ### Headline results -/

/-- R72: the round trip. The bytes of an accepted descriptor's envelope, fed to an empty decoder with room for one record,
append exactly the Frame of that descriptor and leave the decoder empty and idle. -/
def Obligations.EncodedFrameDecodesToItself : Prop :=
  ∀ (d : Descriptor) (e : List Byte) (s : State), d.WellFormed → encodeFrame d = .ok e →
    s.rxBuf = [] → s.rxMode = .idle → s.rxq.length < Config.rxqDepth →
    ∃ k, runScript k (feed e) s = .next ([], { s with rxq := s.rxq ++ [descriptorRecord d] })

/-- R133: corruption recovery. A's envelope with another byte for its end marker, no 0xAA after its header, and then B's
envelope, give one FramingError and the Frame of B, and leave the decoder empty and idle. (The consumer takes each
record as it appears, so that one entry of the queue is enough.) -/
def Obligations.CorruptedEndMarkerRecovers : Prop :=
  ∀ (a b : Descriptor) (ea eb : List Byte) (c : Byte) (s : State), a.WellFormed → b.WellFormed →
    encodeFrame a = .ok ea → encodeFrame b = .ok eb → c ≠ 0x55#8 → 0xAA#8 ∉ (ea.dropLast ++ [c]).drop 1 →
    s.rxBuf = [] → s.rxMode = .idle → s.rxq = [] →
    ∃ k, runScript k (feedTaking (ea.dropLast ++ [c] ++ eb)) s = .next
      ([], { s with resultsOut := s.resultsOut ++ [.framingError .badEndMarker 1#5 0xAA#8, descriptorRecord b] })

/-- R95: chunk-boundary independence of the source's decoder: any split of a stream into chunks gives the records and the
buffer of the stream fed as one chunk. -/
def Obligations.ChunkBoundaryIndependence : Prop :=
  ∀ chunks : List (List Byte), sourceFeedChunks [] chunks = sourceFeed [] chunks.flatten

/-- R75, R99: feeding the block byte by byte gives the source's records and buffer, from every buffer at which the decoder
waits and at every depth of the queue, where the script takes each record as it appears (R62, last sentence). -/
def Obligations.FeedEqualsSourceFeed : Prop :=
  ∀ (bytes : List Byte) (s : State), WaitingBuffer s.rxBuf → s.rxMode = .idle →
    ∃ k, runScript k (feedTaking bytes) s = .next
      ([], { s with
        rxBuf := (sourceFeed s.rxBuf bytes).2,
        rxq := [],
        resultsOut := s.resultsOut ++ s.rxq ++ (sourceFeed s.rxBuf bytes).1 })

/-- R94: from an empty decoder, whatever the transactions and their order (RESET apart), the records emitted and, in IDLE,
the buffer are those the source's decoder gives for the bytes pushed: they depend neither on the depth of the queue, nor
on when records are taken, nor on the TX operations. In SCAN the records still due are those of the buffer's rest. -/
def Obligations.RecordsAreAFunctionOfThePushedBytes : Prop :=
  ∀ (ts : List Transaction) (s t : State), s.rxBuf = [] → s.rxMode = .idle → .rst ∉ ts →
    runTransactions ts s = .next t →
    t.resultsOut ++ t.rxq ++ (sourceFeed t.rxBuf []).1 =
      s.resultsOut ++ s.rxq ++ (sourceFeed [] (pushedBytes ts s)).1 ∧
    (sourceFeed t.rxBuf []).2 = (sourceFeed [] (pushedBytes ts s)).2 ∧
    (t.rxMode = .idle → sourceFeed t.rxBuf [] = ([], t.rxBuf))

/-- R132: from every state with the invariant, where only the TX byte consumer, the RX decoder and the result consumer act,
every run, in whatever order, has at most 15 TX_EMIT, at most 23 RX_STEP and at most `len(rxq)` plus 22 RX_POP, and where
none of the three can act any more the state is quiescent (R131). The last clause runs `step` itself: with these offers
listed (log entry 1) it is quiescent after the sum of the bounds. -/
def Obligations.QuiescenceIsReached : Prop :=
  ∀ s : State, s.Inv →
    (∀ (ts : List Transaction) (t : State), (∀ u ∈ ts, u = .txByteOut ∨ u = .internal ∨ u = .rxResultOut) →
      EnabledRun ts s t →
      ts.count .txByteOut ≤ 15 ∧ ts.count .internal ≤ 23 ∧ ts.count .rxResultOut ≤ s.rxq.length + 22 ∧
      ((∀ u, u = .txByteOut ∨ u = .internal ∨ u = .rxResultOut → t.ready u = false) → State.Quiescent t)) ∧
    ∃ t, core.run (15 + 23 + (s.rxq.length + 22))
        { s with offers := List.replicate 15 .txByteOut ++ List.replicate (s.rxq.length + 22) .rxResultOut } = .next t ∧
      State.Quiescent t

/-- R99, R61, R126: `feed` by itself. Where the queue has room for the source's records, the script ends, with exactly those
appended and the source's buffer. Where it has not, the script waits for ever at a full queue in SCAN, and the bytes not
yet pushed stand in its waiting lines: with them, the buffer still gives the records that are missing, so nothing is lost. -/
def Obligations.FeedEndsOrWaitsWithoutLoss : Prop :=
  ∀ (bytes : List Byte) (s : State), WaitingBuffer s.rxBuf → s.rxMode = .idle → s.rxq.length ≤ Config.rxqDepth →
    let given := sourceFeed s.rxBuf bytes
    (s.rxq.length + given.1.length ≤ Config.rxqDepth →
      ∃ k, runScript k (feed bytes) s = .next ([], { s with rxBuf := given.2, rxq := s.rxq ++ given.1 })) ∧
    (Config.rxqDepth < s.rxq.length + given.1.length →
      ∃ (k : Nat) (pushed left buf : List Byte) (emitted : List Record),
        let t := { s with rxBuf := buf, rxMode := .scan, rxq := s.rxq ++ emitted }
        bytes = pushed ++ left ∧ runScript k (feed bytes) s = .next (.run :: feed left, t) ∧
        (∀ more, runScript more (.run :: feed left) t = .next (.run :: feed left, t)) ∧
        t.rxq.length = Config.rxqDepth ∧
        given = (emitted ++ (sourceFeed buf left).1, (sourceFeed buf left).2))
end

