-- ==== Sys2Proof/Laws/Codec.lean ====
section
/-! SUPPORT. The small lemmas of the type byte and of the payload lanes (R41, R50, R52). -/

namespace Sys2Proof

@[simp] theorem typeMark_encodeTypeByte (mark : BitVec 2) (ext rtr : Bool) (len : BitVec 4) :
    typeMark (encodeTypeByte mark ext rtr len) = mark := by
  revert mark ext rtr len
  decide

@[simp] theorem typeExt_encodeTypeByte (mark : BitVec 2) (ext rtr : Bool) (len : BitVec 4) :
    typeExt (encodeTypeByte mark ext rtr len) = ext := by
  revert mark ext rtr len
  decide

@[simp] theorem typeRtr_encodeTypeByte (mark : BitVec 2) (ext rtr : Bool) (len : BitVec 4) :
    typeRtr (encodeTypeByte mark ext rtr len) = rtr := by
  revert mark ext rtr len
  decide

@[simp] theorem typeLen_encodeTypeByte (mark : BitVec 2) (ext rtr : Bool) (len : BitVec 4) :
    typeLen (encodeTypeByte mark ext rtr len) = len := by
  revert mark ext rtr len
  decide

theorem encodeTypeByte_fields (t : Byte) : encodeTypeByte (typeMark t) (typeExt t) (typeRtr t) (typeLen t) = t := by
  revert t
  decide

@[simp] theorem lanesOf_length (count v : Nat) : (lanesOf count v).length = count := by
  induction count generalizing v with
  | zero => rfl
  | succ count ih => simp [lanesOf, ih]

theorem lanesValue_lt (bs : List Byte) : lanesValue bs < 256 ^ bs.length := by
  induction bs with
  | nil => simp [lanesValue]
  | cons b bs ih =>
    have hb := b.isLt
    simp only [lanesValue, List.length_cons, Nat.pow_succ]
    omega

theorem lanesOf_lanesValue (bs : List Byte) : lanesOf bs.length (lanesValue bs) = bs := by
  induction bs with
  | nil => rfl
  | cons b bs ih =>
    have hb := b.isLt
    have h1 : (b.toNat + 256 * lanesValue bs) / 256 = lanesValue bs := by omega
    have h2 : BitVec.ofNat 8 (b.toNat + 256 * lanesValue bs) = b := by
      apply BitVec.eq_of_toNat_eq
      rw [BitVec.toNat_ofNat]
      omega
    simp [lanesOf, lanesValue, h1, h2, ih]

theorem lanesValue_lanesOf (count v : Nat) (h : v < 256 ^ count) : lanesValue (lanesOf count v) = v := by
  induction count generalizing v with
  | zero => simp at h; simp [lanesOf, lanesValue, h]
  | succ count ih =>
    have h1 : v / 256 < 256 ^ count := by
      rw [Nat.pow_succ] at h
      exact Nat.div_lt_of_lt_mul (by omega)
    simp only [lanesOf, lanesValue, ih _ h1, BitVec.toNat_ofNat]
    omega

/-! ### Packed records as numbers -/

theorem append_toNat {m n : Nat} (x : BitVec m) (y : BitVec n) : (x ++ y).toNat = x.toNat * 2 ^ n + y.toNat := by
  rw [BitVec.toNat_append, Nat.shiftLeft_eq, Nat.mul_comm, Nat.two_pow_add_eq_or_of_lt y.isLt]

theorem ofBool_toNat (b : Bool) : (BitVec.ofBool b).toNat = b.toNat := by
  cases b <;> rfl

/-- The 102 bits of a descriptor as a number (R50). -/
theorem Descriptor.pack_toNat (d : Descriptor) (h : d.WellFormed) :
    d.pack.toNat =
      (((lanesValue d.data * 2 ^ 4 + d.len.toNat) * 2 + d.rtr.toNat) * 2 + d.ext.toNat) * 2 ^ 32 + d.id.toNat := by
  have hlanes : (BitVec.ofNat 64 (lanesValue d.data)).toNat = lanesValue d.data := by
    have hlt := lanesValue_lt d.data
    have hlen : d.data.length = 8 := h
    rw [hlen] at hlt
    rw [BitVec.toNat_ofNat]
    exact Nat.mod_eq_of_lt (by simpa using hlt)
  simp only [Descriptor.pack, append_toNat, hlanes, ofBool_toNat, Nat.pow_one]

end Sys2Proof
end

