-- ==== Sys2Proof/Laws/State.lean ====
section
/-! SUPPORT. One lemma per field and update of State, and the two errors in terms of the updates. -/

namespace Sys2Proof.Machine

namespace State

variable (s : State)

/-! `setTxQ` -/

@[simp] theorem setTxQ_txQ (q : List Byte) : (s.setTxQ q).txQ = q := rfl
@[simp] theorem setTxQ_rxBuf (q : List Byte) : (s.setTxQ q).rxBuf = s.rxBuf := rfl
@[simp] theorem setTxQ_rxMode (q : List Byte) : (s.setTxQ q).rxMode = s.rxMode := rfl
@[simp] theorem setTxQ_rxq (q : List Byte) : (s.setTxQ q).rxq = s.rxq := rfl
@[simp] theorem setTxQ_offers (q : List Byte) : (s.setTxQ q).offers = s.offers := rfl
@[simp] theorem setTxQ_statusOut (q : List Byte) : (s.setTxQ q).statusOut = s.statusOut := rfl
@[simp] theorem setTxQ_bytesOut (q : List Byte) : (s.setTxQ q).bytesOut = s.bytesOut := rfl
@[simp] theorem setTxQ_resultsOut (q : List Byte) : (s.setTxQ q).resultsOut = s.resultsOut := rfl

/-! `setRxBuf` -/

@[simp] theorem setRxBuf_txQ (buf : List Byte) : (s.setRxBuf buf).txQ = s.txQ := rfl
@[simp] theorem setRxBuf_rxBuf (buf : List Byte) : (s.setRxBuf buf).rxBuf = buf := rfl
@[simp] theorem setRxBuf_rxMode (buf : List Byte) : (s.setRxBuf buf).rxMode = s.rxMode := rfl
@[simp] theorem setRxBuf_rxq (buf : List Byte) : (s.setRxBuf buf).rxq = s.rxq := rfl
@[simp] theorem setRxBuf_offers (buf : List Byte) : (s.setRxBuf buf).offers = s.offers := rfl
@[simp] theorem setRxBuf_statusOut (buf : List Byte) : (s.setRxBuf buf).statusOut = s.statusOut := rfl
@[simp] theorem setRxBuf_bytesOut (buf : List Byte) : (s.setRxBuf buf).bytesOut = s.bytesOut := rfl
@[simp] theorem setRxBuf_resultsOut (buf : List Byte) : (s.setRxBuf buf).resultsOut = s.resultsOut := rfl

/-! `setRxMode` -/

@[simp] theorem setRxMode_txQ (m : RxMode) : (s.setRxMode m).txQ = s.txQ := rfl
@[simp] theorem setRxMode_rxBuf (m : RxMode) : (s.setRxMode m).rxBuf = s.rxBuf := rfl
@[simp] theorem setRxMode_rxMode (m : RxMode) : (s.setRxMode m).rxMode = m := rfl
@[simp] theorem setRxMode_rxq (m : RxMode) : (s.setRxMode m).rxq = s.rxq := rfl
@[simp] theorem setRxMode_offers (m : RxMode) : (s.setRxMode m).offers = s.offers := rfl
@[simp] theorem setRxMode_statusOut (m : RxMode) : (s.setRxMode m).statusOut = s.statusOut := rfl
@[simp] theorem setRxMode_bytesOut (m : RxMode) : (s.setRxMode m).bytesOut = s.bytesOut := rfl
@[simp] theorem setRxMode_resultsOut (m : RxMode) : (s.setRxMode m).resultsOut = s.resultsOut := rfl

/-! `setRxq` -/

@[simp] theorem setRxq_txQ (q : List Record) : (s.setRxq q).txQ = s.txQ := rfl
@[simp] theorem setRxq_rxBuf (q : List Record) : (s.setRxq q).rxBuf = s.rxBuf := rfl
@[simp] theorem setRxq_rxMode (q : List Record) : (s.setRxq q).rxMode = s.rxMode := rfl
@[simp] theorem setRxq_rxq (q : List Record) : (s.setRxq q).rxq = q := rfl
@[simp] theorem setRxq_offers (q : List Record) : (s.setRxq q).offers = s.offers := rfl
@[simp] theorem setRxq_statusOut (q : List Record) : (s.setRxq q).statusOut = s.statusOut := rfl
@[simp] theorem setRxq_bytesOut (q : List Record) : (s.setRxq q).bytesOut = s.bytesOut := rfl
@[simp] theorem setRxq_resultsOut (q : List Record) : (s.setRxq q).resultsOut = s.resultsOut := rfl

/-! `setOffers` -/

@[simp] theorem setOffers_txQ (l : List Transaction) : (s.setOffers l).txQ = s.txQ := rfl
@[simp] theorem setOffers_rxBuf (l : List Transaction) : (s.setOffers l).rxBuf = s.rxBuf := rfl
@[simp] theorem setOffers_rxMode (l : List Transaction) : (s.setOffers l).rxMode = s.rxMode := rfl
@[simp] theorem setOffers_rxq (l : List Transaction) : (s.setOffers l).rxq = s.rxq := rfl
@[simp] theorem setOffers_offers (l : List Transaction) : (s.setOffers l).offers = l := rfl
@[simp] theorem setOffers_statusOut (l : List Transaction) : (s.setOffers l).statusOut = s.statusOut := rfl
@[simp] theorem setOffers_bytesOut (l : List Transaction) : (s.setOffers l).bytesOut = s.bytesOut := rfl
@[simp] theorem setOffers_resultsOut (l : List Transaction) : (s.setOffers l).resultsOut = s.resultsOut := rfl

/-! `emitRecord` -/

@[simp] theorem emitRecord_txQ (r : Record) : (s.emitRecord r).txQ = s.txQ := rfl
@[simp] theorem emitRecord_rxBuf (r : Record) : (s.emitRecord r).rxBuf = s.rxBuf := rfl
@[simp] theorem emitRecord_rxMode (r : Record) : (s.emitRecord r).rxMode = s.rxMode := rfl
@[simp] theorem emitRecord_rxq (r : Record) : (s.emitRecord r).rxq = s.rxq ++ [r] := rfl
@[simp] theorem emitRecord_offers (r : Record) : (s.emitRecord r).offers = s.offers := rfl
@[simp] theorem emitRecord_statusOut (r : Record) : (s.emitRecord r).statusOut = s.statusOut := rfl
@[simp] theorem emitRecord_bytesOut (r : Record) : (s.emitRecord r).bytesOut = s.bytesOut := rfl
@[simp] theorem emitRecord_resultsOut (r : Record) : (s.emitRecord r).resultsOut = s.resultsOut := rfl

/-! `deliverStatus` -/

@[simp] theorem deliverStatus_txQ (st : TxStatus) : (s.deliverStatus st).txQ = s.txQ := rfl
@[simp] theorem deliverStatus_rxBuf (st : TxStatus) : (s.deliverStatus st).rxBuf = s.rxBuf := rfl
@[simp] theorem deliverStatus_rxMode (st : TxStatus) : (s.deliverStatus st).rxMode = s.rxMode := rfl
@[simp] theorem deliverStatus_rxq (st : TxStatus) : (s.deliverStatus st).rxq = s.rxq := rfl
@[simp] theorem deliverStatus_offers (st : TxStatus) : (s.deliverStatus st).offers = s.offers := rfl
@[simp] theorem deliverStatus_statusOut (st : TxStatus) : (s.deliverStatus st).statusOut = s.statusOut ++ [st] := rfl
@[simp] theorem deliverStatus_bytesOut (st : TxStatus) : (s.deliverStatus st).bytesOut = s.bytesOut := rfl
@[simp] theorem deliverStatus_resultsOut (st : TxStatus) : (s.deliverStatus st).resultsOut = s.resultsOut := rfl

/-! `deliverByte` -/

@[simp] theorem deliverByte_txQ (b : Byte) : (s.deliverByte b).txQ = s.txQ := rfl
@[simp] theorem deliverByte_rxBuf (b : Byte) : (s.deliverByte b).rxBuf = s.rxBuf := rfl
@[simp] theorem deliverByte_rxMode (b : Byte) : (s.deliverByte b).rxMode = s.rxMode := rfl
@[simp] theorem deliverByte_rxq (b : Byte) : (s.deliverByte b).rxq = s.rxq := rfl
@[simp] theorem deliverByte_offers (b : Byte) : (s.deliverByte b).offers = s.offers := rfl
@[simp] theorem deliverByte_statusOut (b : Byte) : (s.deliverByte b).statusOut = s.statusOut := rfl
@[simp] theorem deliverByte_bytesOut (b : Byte) : (s.deliverByte b).bytesOut = s.bytesOut ++ [b] := rfl
@[simp] theorem deliverByte_resultsOut (b : Byte) : (s.deliverByte b).resultsOut = s.resultsOut := rfl

/-! `deliverRecord` -/

@[simp] theorem deliverRecord_txQ (r : Record) : (s.deliverRecord r).txQ = s.txQ := rfl
@[simp] theorem deliverRecord_rxBuf (r : Record) : (s.deliverRecord r).rxBuf = s.rxBuf := rfl
@[simp] theorem deliverRecord_rxMode (r : Record) : (s.deliverRecord r).rxMode = s.rxMode := rfl
@[simp] theorem deliverRecord_rxq (r : Record) : (s.deliverRecord r).rxq = s.rxq := rfl
@[simp] theorem deliverRecord_offers (r : Record) : (s.deliverRecord r).offers = s.offers := rfl
@[simp] theorem deliverRecord_statusOut (r : Record) : (s.deliverRecord r).statusOut = s.statusOut := rfl
@[simp] theorem deliverRecord_bytesOut (r : Record) : (s.deliverRecord r).bytesOut = s.bytesOut := rfl
@[simp] theorem deliverRecord_resultsOut (r : Record) : (s.deliverRecord r).resultsOut = s.resultsOut ++ [r] := rfl

/-! The two errors -/

theorem raiseValidationError_eq (e : ValidationError) :
    s.raiseValidationError e = { s with statusOut := s.statusOut ++ [e.status] } := rfl

theorem raiseBadEndMarker_eq :
    s.raiseBadEndMarker =
      { s with rxq := s.rxq ++ [.framingError .badEndMarker 1 (s.rxBuf.getD 0 0#8)], rxBuf := s.rxBuf.drop 1 } := rfl

end State

end Sys2Proof.Machine
end

