-- ==== Sys2Proof/Laws/Ops.lean ====
section
/-! SUPPORT. For each shared operation, what it can do, said once: the queue's room, the search for a header, the decision
of a candidate, the encoder, and the choice of the next transaction. -/

namespace Sys2Proof.Machine

/-! ### Room in the result queue (R87) -/

theorem hasRoom_iff (q : List Record) (depth : Nat) : hasRoom q depth = true ↔ q.length < depth := by
  induction q generalizing depth with
  | nil => cases depth <;> simp [hasRoom]
  | cons r q ih => cases depth <;> simp [hasRoom, ih]

theorem canEmit_iff (s : State) : s.canEmit = true ↔ s.rxq.length < Config.rxqDepth := hasRoom_iff _ _

theorem canEmit_eq_false_iff (s : State) : s.canEmit = false ↔ Config.rxqDepth ≤ s.rxq.length := by
  rw [← Bool.not_eq_true, canEmit_iff, Nat.not_lt]

theorem rxqDepth_pos : 0 < Config.rxqDepth := Nat.succ_pos _

/-! ### The search for a header (R78, R79) -/

theorem fromHeader_eq_nil_iff (buf : List Byte) : fromHeader buf = [] ↔ hdrByte ∉ buf := by
  induction buf with
  | nil => simp [fromHeader]
  | cons b bs ih =>
    by_cases h : b = hdrByte
    · simp [fromHeader, h]
    · have h' : (b != hdrByte) = true := by simpa using h
      rw [fromHeader, List.dropWhile_cons_of_pos (p := (· != hdrByte)) h']
      simpa [fromHeader, Ne.symm h] using ih

theorem fromHeader_append (front rest : List Byte) (h : hdrByte ∉ front) :
    fromHeader (front ++ hdrByte :: rest) = hdrByte :: rest := by
  induction front with
  | nil => simp [fromHeader]
  | cons b bs ih =>
    simp only [List.mem_cons, not_or] at h
    have hb : (b != hdrByte) = true := by simpa using Ne.symm h.1
    have := ih h.2
    simp only [fromHeader, List.cons_append] at this ⊢
    rw [List.dropWhile_cons_of_pos (p := (· != hdrByte)) hb, this]

theorem fromHeader_cons_header (rest : List Byte) : fromHeader (hdrByte :: rest) = hdrByte :: rest :=
  fromHeader_append [] rest (by simp)

/-- The buffer is a front without a header and what `fromHeader` keeps, which starts with the header if it is not empty. -/
theorem fromHeader_split (buf : List Byte) :
    (hdrByte ∉ buf ∧ fromHeader buf = []) ∨
    ∃ front rest, hdrByte ∉ front ∧ buf = front ++ hdrByte :: rest ∧ fromHeader buf = hdrByte :: rest := by
  induction buf with
  | nil => exact .inl ⟨by simp, rfl⟩
  | cons b bs ih =>
    by_cases h : b = hdrByte
    · subst h
      exact .inr ⟨[], bs, by simp, rfl, fromHeader_cons_header bs⟩
    · rcases ih with ⟨h1, _⟩ | ⟨front, rest, h1, h2, _⟩
      · have : hdrByte ∉ b :: bs := by simp [Ne.symm h, h1]
        exact .inl ⟨this, (fromHeader_eq_nil_iff _).2 this⟩
      · have hf : hdrByte ∉ b :: front := by simp [Ne.symm h, h1]
        refine .inr ⟨b :: front, rest, hf, by simp [h2], ?_⟩
        rw [h2, ← List.cons_append, fromHeader_append _ _ hf]

theorem attemptEmits_append (front : List Byte) (t : Byte) (rest : List Byte) (h : hdrByte ∉ front) :
    attemptEmits (front ++ hdrByte :: t :: rest) = decide (typeByteLen t ≤ rest.length + 2) := by
  rw [attemptEmits, fromHeader_append _ _ h]

theorem attemptEmits_iff (buf : List Byte) :
    attemptEmits buf = true ↔ ∃ h t rest, fromHeader buf = h :: t :: rest ∧ typeByteLen t ≤ rest.length + 2 := by
  rw [attemptEmits]
  split
  · rename_i h t rest heq
    rw [decide_eq_true_iff]
    constructor
    · exact fun hle => ⟨h, t, rest, heq, hle⟩
    · rintro ⟨h', t', rest', heq', hle⟩
      rw [heq] at heq'
      injection heq' with _ h2
      injection h2 with h3 h4
      subst h3 h4
      exact hle
  · rename_i hne
    constructor
    · intro hf
      simp at hf
    · rintro ⟨h, t, rest, heq, _⟩
      exact absurd heq (hne h t rest)

/-- A record is due, in the bytes of the buffer: a first header with its whole candidate behind it (R87). -/
theorem attemptEmits_iff_candidate (buf : List Byte) :
    attemptEmits buf = true ↔
      ∃ front t rest, hdrByte ∉ front ∧ buf = front ++ hdrByte :: t :: rest ∧ typeByteLen t ≤ rest.length + 2 := by
  constructor
  · intro h
    obtain ⟨b, t, rest, heq, hle⟩ := (attemptEmits_iff buf).1 h
    rcases fromHeader_split buf with ⟨_, hnil⟩ | ⟨front, r, hfront, hbuf, hr⟩
    · simp [hnil] at heq
    · rw [hr] at heq
      cases heq
      exact ⟨front, t, rest, hfront, hbuf, hle⟩
  · rintro ⟨front, t, rest, hfront, rfl, hle⟩
    rw [attemptEmits_append _ _ _ hfront]
    exact decide_eq_true hle

/-! ### The decision of one candidate (R83 to R87) -/

/-- What a decided candidate can be. -/
theorem decideCandidate_cases (s : State) (ext rtr : Bool) (len : BitVec 4) :
    (s.rxMode = .idle ∧ s.decideCandidate ext rtr len = s) ∨
    (s.rxMode = .scan ∧ s.rxBuf.length < envelopeLen ext len ∧
      s.decideCandidate ext rtr len = { s with rxMode := .idle }) ∨
    (s.rxMode = .scan ∧ envelopeLen ext len ≤ s.rxBuf.length ∧ Config.rxqDepth ≤ s.rxq.length ∧
      s.decideCandidate ext rtr len = s) ∨
    (s.rxMode = .scan ∧ envelopeLen ext len ≤ s.rxBuf.length ∧ s.rxq.length < Config.rxqDepth ∧
      candidateValid ext len s.rxBuf = true ∧
      s.decideCandidate ext rtr len =
        { s with rxq := s.rxq ++ [frameRecord ext rtr len s.rxBuf], rxBuf := s.rxBuf.drop (envelopeLen ext len) }) ∨
    (s.rxMode = .scan ∧ envelopeLen ext len ≤ s.rxBuf.length ∧ s.rxq.length < Config.rxqDepth ∧
      candidateValid ext len s.rxBuf = false ∧
      s.decideCandidate ext rtr len =
        { s with rxq := s.rxq ++ [.framingError .badEndMarker 1 (s.rxBuf.getD 0 0#8)], rxBuf := s.rxBuf.drop 1 }) := by
  rw [State.decideCandidate]
  split
  · rename_i h
    exact .inl ⟨h, rfl⟩
  · rename_i h
    right
    split
    · rename_i hlt
      exact .inl ⟨h, hlt, rfl⟩
    · rename_i hge
      have hge := Nat.not_lt.1 hge
      right
      split
      · rename_i hfull
        exact .inl ⟨h, hge, (canEmit_eq_false_iff s).1 hfull, rfl⟩
      · rename_i hroom
        have hroom : s.rxq.length < Config.rxqDepth := (canEmit_iff s).1 (by simpa using hroom)
        right
        split
        · rename_i hv
          exact .inl ⟨h, hge, hroom, hv, rfl⟩
        · rename_i hv
          exact .inr ⟨h, hge, hroom, by simpa using hv, rfl⟩

/-- A decided candidate touches the RX half only. -/
theorem decideCandidate_frame (s : State) (ext rtr : Bool) (len : BitVec 4) :
    (s.decideCandidate ext rtr len).txQ = s.txQ ∧ (s.decideCandidate ext rtr len).offers = s.offers ∧
    (s.decideCandidate ext rtr len).statusOut = s.statusOut ∧ (s.decideCandidate ext rtr len).bytesOut = s.bytesOut ∧
    (s.decideCandidate ext rtr len).resultsOut = s.resultsOut := by
  rcases decideCandidate_cases s ext rtr len with h | h | h | h | h
  · simp [h.2]
  · simp [h.2.2]
  · simp [h.2.2.2]
  · simp [h.2.2.2.2]
  · simp [h.2.2.2.2]

/-- A type byte runs its kind: the decision of a candidate with its `E`, `R` and `L` (R81). -/
theorem execEnvelope_eq (t : Byte) (s : State) :
    execEnvelope t s = .next (s.decideCandidate (typeExt t) (typeRtr t) (typeLen t)) := by
  rw [execEnvelope]
  cases typeExt t <;> cases typeRtr t <;> rfl

/-! ### The encoder (R64) -/

/-- What an accepted descriptor tells, and what its envelope is. -/
theorem encodeFrame_ok (d : Descriptor) (e : List Byte) (h : encodeFrame d = .ok e) :
    d.len.toNat ≤ 8 ∧ d.id.toNat < idLimit d.ext ∧
    e = [hdrByte, encoderTypeByte d.ext d.rtr d.len] ++ idBytes d.ext d.id ++ d.data.take d.len.toNat ++ [endByte] := by
  rw [encodeFrame] at h
  split at h
  · cases h
  · split at h
    · cases h
    · rename_i h1 h2
      injection h with h3
      exact ⟨Nat.not_lt.1 h1, Nat.not_le.1 h2, h3.symm⟩

/-! ### The choice of the next transaction (R8) -/

/-- The offer that has its turn is enabled, and none before it is. -/
theorem turn_eq_some (s : State) (t : Transaction) (h : s.turn = some t) :
    s.ready t = true ∧ ∃ before behind, s.offers = before ++ t :: behind ∧ (∀ u ∈ before, s.ready u = false) ∧
      s.granted = { s with offers := before ++ behind } := by
  rw [State.turn, List.find?_eq_some_iff_append] at h
  obtain ⟨hr, before, behind, ho, hb⟩ := h
  have hb' : ∀ u ∈ before, s.ready u = false := fun u hu => by simpa using hb u hu
  refine ⟨hr, before, behind, ho, hb', ?_⟩
  have he : s.offers.eraseP s.ready = before ++ behind := by
    rw [ho, List.eraseP_append_right _ (fun u hu => by simp [hb' u hu]), List.eraseP_cons_of_pos hr]
  rw [State.granted, he]
  rfl

/-- Without a turn no offer is enabled, and the offers stay. -/
theorem turn_eq_none (s : State) (h : s.turn = none) :
    (∀ u ∈ s.offers, s.ready u = false) ∧ s.granted = s := by
  rw [State.turn, List.find?_eq_none] at h
  refine ⟨fun u hu => by simpa using h u hu, ?_⟩
  rw [State.granted, List.eraseP_of_forall_not h]
  rfl

end Sys2Proof.Machine
end

