-- ==== Sys2Proof/Laws/Meanings.lean ====
section
/-! SUPPORT. For each meaning over a shared operation, the cases it can end in, said once: if it answers `next t`, then one
of these holds. -/

namespace Sys2Proof.Machine

/-- RX_STEP: waits, ends the run without a header, ends it at a lone header, or decides the candidate (R77). -/
theorem execRxStep_cases (s t : State) (h : execRxStep s = .next t) :
    (s.rxStepReady = false ∧ t = s) ∨
    (s.rxMode = .scan ∧ fromHeader s.rxBuf = [] ∧ t = { s with rxBuf := [], rxMode := .idle }) ∨
    (s.rxMode = .scan ∧ ∃ b, fromHeader s.rxBuf = [b] ∧ t = { s with rxBuf := [b], rxMode := .idle }) ∨
    (s.rxMode = .scan ∧ s.rxStepReady = true ∧ ∃ b ty rest, fromHeader s.rxBuf = b :: ty :: rest ∧
      t = { s with rxBuf := b :: ty :: rest }.decideCandidate (typeExt ty) (typeRtr ty) (typeLen ty)) := by
  rw [execRxStep] at h
  split at h
  · rename_i hready
    have hscan : s.rxMode = .scan := by
      cases hm : s.rxMode
      · simp [State.rxStepReady, State.rxReady, hm] at hready
      · rfl
    split at h
    · rename_i hnone
      cases h
      exact .inr (.inl ⟨hscan, hnone, rfl⟩)
    · rename_i b hone
      cases h
      exact .inr (.inr (.inl ⟨hscan, b, hone, rfl⟩))
    · rename_i b ty rest hmore
      rw [execEnvelope_eq] at h
      cases h
      exact .inr (.inr (.inr ⟨hscan, hready, b, ty, rest, hmore, rfl⟩))
  · rename_i hwait
    cases h
    exact .inl ⟨by simpa using hwait, rfl⟩

/-- TX_SUBMIT: waits, returns a ValidationError status, or loads the envelope (R68). -/
theorem execTxSubmit_cases (d : Descriptor) (s t : State) (h : execTxSubmit d s = .next t) :
    (s.txQ ≠ [] ∧ t = s) ∨
    (s.txQ = [] ∧ ∃ e, encodeFrame d = .err e ∧ t = { s with statusOut := s.statusOut ++ [e.status] }) ∨
    (s.txQ = [] ∧ ∃ e, encodeFrame d = .ok e ∧ t = { s with txQ := e, statusOut := s.statusOut ++ [.ok] }) := by
  rw [execTxSubmit] at h
  split at h
  · rename_i hbusy
    cases h
    exact .inl ⟨by simpa [State.txBusy] using hbusy, rfl⟩
  · rename_i hfree
    have hq : s.txQ = [] := by simpa [State.txBusy] using hfree
    split at h
    · rename_i e he
      cases h
      exact .inr (.inl ⟨hq, e, he, rfl⟩)
    · rename_i e he
      cases h
      exact .inr (.inr ⟨hq, e, he, rfl⟩)

/-- TX_EMIT: waits, or delivers the first byte (R69). -/
theorem execTxEmit_cases (s t : State) (h : execTxEmit s = .next t) :
    (s.txQ = [] ∧ t = s) ∨
    ∃ b q, s.txQ = b :: q ∧ t = { s with txQ := q, bytesOut := s.bytesOut ++ [b] } := by
  rw [execTxEmit] at h
  split at h
  · rename_i hq
    cases h
    exact .inl ⟨hq, rfl⟩
  · rename_i b q hq
    cases h
    exact .inr ⟨b, q, hq, rfl⟩

/-- RX_PUSH: waits, or appends the byte (R76). -/
theorem execRxPush_cases (b : Byte) (s t : State) (h : execRxPush b s = .next t) :
    (s.rxMode = .scan ∧ t = s) ∨
    (s.rxMode = .idle ∧ t = { s with rxBuf := s.rxBuf ++ [b], rxMode := .scan }) := by
  rw [execRxPush] at h
  split at h
  · rename_i hready
    cases h
    exact .inr ⟨by simpa [State.rxReady] using hready, rfl⟩
  · rename_i hwait
    cases h
    refine .inl ⟨?_, rfl⟩
    cases hm : s.rxMode
    · simp [State.rxReady, hm] at hwait
    · rfl

/-- RX_POP: waits, or delivers the oldest record (R89). -/
theorem execRxPop_cases (s t : State) (h : execRxPop s = .next t) :
    (s.rxq = [] ∧ t = s) ∨
    ∃ r q, s.rxq = r :: q ∧ t = { s with rxq := q, resultsOut := s.resultsOut ++ [r] } := by
  rw [execRxPop] at h
  split at h
  · rename_i hq
    cases h
    exact .inl ⟨hq, rfl⟩
  · rename_i r q hq
    cases h
    exact .inr ⟨r, q, hq, rfl⟩

end Sys2Proof.Machine
end

