-- ==== Sys2Proof/Laws/PerInstr.lean ====
section
/-! SUPPORT. For each instruction: its word belongs to its own row of the opcode table and to no other (R55, R60). -/

namespace Sys2Proof.Laws.TableRow

/-- The rows of the table that the instruction's word fits are exactly its own. -/
def Statement (i : Instr) : Prop :=
  (opcodeTable.filter (fun r => r.fits (encode i))).map (fun r => r.mnemonic) = [i.mnemonic]

theorem envStdData (mark : BitVec 2) (len : BitVec 4) : Statement (.envStdData mark len) := by
  revert mark len
  unfold Statement
  decide

theorem envStdRemote (mark : BitVec 2) (len : BitVec 4) : Statement (.envStdRemote mark len) := by
  revert mark len
  unfold Statement
  decide

theorem envExtData (mark : BitVec 2) (len : BitVec 4) : Statement (.envExtData mark len) := by
  revert mark len
  unfold Statement
  decide

theorem envExtRemote (mark : BitVec 2) (len : BitVec 4) : Statement (.envExtRemote mark len) := by
  revert mark len
  unfold Statement
  decide

theorem txSubmit (d : Descriptor) : Statement (.txSubmit d) := rfl

theorem txEmit : Statement .txEmit := rfl

theorem rxPush (b : Byte) : Statement (.rxPush b) := rfl

theorem rxStep : Statement .rxStep := rfl

theorem rxPop : Statement .rxPop := rfl

theorem reset : Statement .reset := rfl

end Sys2Proof.Laws.TableRow
end

