-- ==== Sys2Proof/Laws/Script.lean ====
section
/-! SUPPORT. What one step of a script can do, said once, and how steps of a script compose (R61). -/

namespace Sys2Proof.Machine

@[simp] theorem runScript_zero (lines : List ScriptLine) (s : State) : runScript 0 lines s = .next (lines, s) := rfl

@[simp] theorem scriptStep_nil (s : State) : scriptStep [] s = .next ([], s) := rfl

@[simp] theorem feed_nil : feed [] = [] := rfl

@[simp] theorem feed_cons (b : Byte) (bs : List Byte) : feed (b :: bs) = .op (.rxByteIn b) :: .run :: feed bs := rfl

@[simp] theorem feedTaking_nil : feedTaking [] = [.drain] := rfl

@[simp] theorem feedTaking_cons (b : Byte) (bs : List Byte) :
    feedTaking (b :: bs) = .op (.rxByteIn b) :: .runTaking :: feedTaking bs := rfl

/-- A line that is over is left out. -/
theorem scriptStep_over (l : ScriptLine) (ls : List ScriptLine) (s : State) (h : l.ask s = none) :
    scriptStep (l :: ls) s = .next (ls, s) := by
  simp [scriptStep, h]

/-- A line whose operation is not enabled waits, with everything behind it. -/
theorem scriptStep_waits (l : ScriptLine) (ls rest : List ScriptLine) (t : Transaction) (s : State)
    (h : l.ask s = some (t, rest)) (hready : s.ready t = false) :
    scriptStep (l :: ls) s = .next (l :: ls, s) := by
  simp [scriptStep, h, hready]

/-- A line whose operation is enabled performs it. -/
theorem scriptStep_performs (l : ScriptLine) (ls rest : List ScriptLine) (t : Transaction) (s s' : State)
    (h : l.ask s = some (t, rest)) (hready : s.ready t = true) (hexec : exec (decodeTransaction t) s = .next s') :
    scriptStep (l :: ls) s = .next (rest ++ ls, s') := by
  simp [scriptStep, h, hready, hexec]

theorem runScript_succ (k : Nat) (lines lines' : List ScriptLine) (s s' : State)
    (h : scriptStep lines s = .next (lines', s')) : runScript (k + 1) lines s = runScript k lines' s' := by
  simp [runScript, h]

/-- A step that leaves script and state as they are repeats for ever. -/
theorem runScript_stays (k : Nat) (lines : List ScriptLine) (s : State) (h : scriptStep lines s = .next (lines, s)) :
    runScript k lines s = .next (lines, s) := by
  induction k with
  | zero => rfl
  | succ k ih => rw [runScript_succ k lines lines s s h, ih]

/-- Steps of a script compose. -/
theorem runScript_add (j k : Nat) (lines lines' : List ScriptLine) (s s' : State)
    (h : runScript j lines s = .next (lines', s')) : runScript (j + k) lines s = runScript k lines' s' := by
  induction j generalizing lines s with
  | zero =>
    cases h
    rw [Nat.zero_add]
  | succ j ih =>
    rw [Nat.add_right_comm]
    simp only [runScript] at h ⊢
    cases hstep : scriptStep lines s with
    | next p => simp only [hstep] at h ⊢; exact ih _ _ h
    | fault r => simp [hstep] at h
    | refused r => simp [hstep] at h

end Sys2Proof.Machine
end

