-- ==== Sys2Proof/Laws/Source.lean ====
section
/-! SUPPORT. One pass of the source's decoder in terms of the buffer from its first header on (R74). -/

namespace Sys2Proof.Machine

theorem findIdx_header (front rest : List Byte) (h : hdrByte ∉ front) :
    (front ++ hdrByte :: rest).findIdx? (· == hdrByte) = some front.length := by
  induction front with
  | nil => simp [List.findIdx?_cons]
  | cons b bs ih =>
    simp only [List.mem_cons, not_or] at h
    have hb : (b == hdrByte) = false := by simpa using Ne.symm h.1
    rw [List.cons_append, List.findIdx?_cons, hb, ih h.2]
    simp

theorem sourceMinLen_eq (t : Byte) :
    2 + (if typeExt t then 4 else 2) + (typeLen t).toNat + 1 = typeByteLen t := by
  simp only [typeByteLen, envelopeLen, idWidth]
  omega

/-- Step 2 with no header: the buffer is discarded. -/
theorem sourceLoop_of_no_header (passes : Nat) (buf : List Byte) (h : hdrByte ∉ buf) :
    sourceLoop (passes + 1) buf = ([], []) := by
  have hnone : buf.findIdx? (· == hdrByte) = none := by
    rw [List.findIdx?_eq_none_iff]
    intro x hx
    simp only [beq_eq_false_iff_ne, ne_eq]
    rintro rfl
    exact h hx
  rw [sourceLoop, hnone]

/-- Steps 2 to 8 from the first header on; the front is dropped. -/
theorem sourceLoop_of_header (passes : Nat) (front rest : List Byte) (h : hdrByte ∉ front) :
    sourceLoop (passes + 1) (front ++ hdrByte :: rest) =
      (let aligned := hdrByte :: rest
       let t := aligned.getD 1 0#8
       if aligned.length < 2 then ([], aligned)
       else if aligned.length < typeByteLen t then ([], aligned)
       else if aligned.getD (typeByteLen t - 1) 0#8 = endByte ∧ aligned.getD 0 0#8 = hdrByte then
         (frameRecord (typeExt t) (typeRtr t) (typeLen t) aligned ::
            (sourceLoop passes (aligned.drop (typeByteLen t))).1,
          (sourceLoop passes (aligned.drop (typeByteLen t))).2)
       else
         (badEndMarkerRecord :: (sourceLoop passes rest).1, (sourceLoop passes rest).2)) := by
  rw [sourceLoop, findIdx_header _ _ h]
  simp only [List.drop_left, sourceMinLen_eq]
  rfl

end Sys2Proof.Machine
end

