-- ==== Sys2Proof/Tests/Slice0.lean ====
section
/-! SUPPORT. Tests against the spec's own examples and vectors (spec/95_test_vectors.md, the examples of R68, R69, R76, R77,
R89 and R118), and a witness for the hypotheses of every statement that has some. -/

namespace Sys2Proof.Tests

open Sys2Proof.Machine

/-- The block with these four elements; nothing offered, nothing delivered. -/
def block (txQ rxBuf : List Byte) (rxMode : RxMode) (rxq : List Record) : State :=
  { State.reset with txQ := txQ, rxBuf := rxBuf, rxMode := rxMode, rxq := rxq }

/-- The next state of an outcome (the reset state stands in for a stop, which no test meets). -/
def after (o : Host.Outcome State Fault Refusal) : State :=
  match o with
  | .next s => s
  | _       => State.reset

/-- A Frame record with the given lanes and zero lanes above them (R54). -/
def frameOf (id : BitVec 32) (ext rtr : Bool) (len : BitVec 4) (lanes : List Byte) : Record :=
  .frame { id := id, ext := ext, rtr := rtr, len := len, data := lanes ++ List.replicate (15 - lanes.length) 0#8 }

/-- FE of 95_test_vectors.md. -/
def fe : Record := .framingError .badEndMarker 1 0xAA#8

/-- A descriptor with eight lanes. -/
def desc (id : BitVec 32) (ext rtr : Bool) (len : BitVec 4) (lanes : List Byte) : Descriptor :=
  { id := id, ext := ext, rtr := rtr, len := len, data := lanes ++ List.replicate (8 - lanes.length) 0#8 }

/-- ENC-01. -/
def enc01 : Descriptor := desc 0x123 false false 2 [1, 2]

/-- ENC-02, frame B of S4. -/
def enc02 : Descriptor := desc 0x7FF false false 0 []

/-! ### Well-formedness -/

/-- A descriptor with seven lanes is refused (R50). -/
theorem test_wellFormed_refuses_seven_lanes :
    (Instr.txSubmit { enc01 with data := [1, 2, 0, 0, 0, 0, 0] }).wellFormed = false := by decide

theorem test_wellFormed_refuses_nine_lanes :
    (Instr.txSubmit { enc01 with data := [1, 2, 0, 0, 0, 0, 0, 0, 0] }).wellFormed = false := by decide

theorem test_wellFormed_accepts_eight_lanes : (Instr.txSubmit enc01).wellFormed = true := by decide

/-! ### Decoding of words written out from R41, R50 and R60 -/

/-- MARK = 11, E = 0, R = 0, L = 0010. -/
theorem test_decode_envStdData : decodeCode (.typeByte 0b11000010#8) = .envStdData 3 2 := by decide

/-- MARK = 01, E = 0, R = 1, L = 0101: the byte 0x55 (R81). -/
theorem test_decode_envStdRemote : decodeCode (.typeByte 0b01010101#8) = .envStdRemote 1 5 := by decide

/-- MARK = 10, E = 1, R = 0, L = 1010: the byte 0xAA (R81). -/
theorem test_decode_envExtData : decodeCode (.typeByte 0b10101010#8) = .envExtData 2 10 := by decide

/-- MARK = 00, E = 1, R = 1, L = 1111: the byte 0x3F (R81). -/
theorem test_decode_envExtRemote : decodeCode (.typeByte 0b00111111#8) = .envExtRemote 0 15 := by decide

/-- ENC-01's packed descriptor. -/
theorem test_decode_txSubmit :
    decodeCode (.offered (.txFrameIn 0x00000000000000804800000123#102)) = .txSubmit enc01 := by decide

/-- ENC-04's packed descriptor: every field in use. -/
theorem test_decode_txSubmit_extended :
    decodeCode (.offered (.txFrameIn 0x01C1814100C08040211FFFFFFF#102)) =
      .txSubmit (desc 0x1FFFFFFF true false 8 [0, 1, 2, 3, 4, 5, 6, 7]) := by decide

theorem test_decode_txEmit : decodeCode (.offered .txByteOut) = .txEmit := rfl
theorem test_decode_rxPush : decodeCode (.offered (.rxByteIn 0xAA#8)) = .rxPush 0xAA#8 := rfl
theorem test_decode_rxStep : decodeCode (.offered .internal) = .rxStep := rfl
theorem test_decode_rxPop : decodeCode (.offered .rxResultOut) = .rxPop := rfl
theorem test_decode_reset : decodeCode (.offered .rst) = .reset := rfl

theorem test_decodeTableWord_kinds :
    decodeTableWord 8 0x00 = some (.envStdData 0 0) ∧ decodeTableWord 8 0x10 = some (.envStdRemote 0 0) ∧
    decodeTableWord 8 0x20 = some (.envExtData 0 0) ∧ decodeTableWord 8 0x30 = some (.envExtRemote 0 0) := by decide

theorem test_decodeTableWord_rejects : decodeTableWord 16 0 = none ∧ decodeTableWord 8 256 = none := by decide

/-- No two rows of the opcode table take the same type byte or the same interface. -/
theorem test_opcodeTable_rows_differ :
    opcodeTable.Pairwise (fun r q => r.mnemonic ≠ q.mnemonic ∧ r.select ≠ q.select) := by decide

/-! ### Packed result records (95_test_vectors.md §2.3) -/

theorem test_pack_framingError : fe.pack = 0xAA0B#159 := by decide

theorem test_pack_frame :
    (frameOf 0x1 true true 3 [0xAA, 0x55, 0]).pack = 0x000000000000000000000000002AD51E00000002#159 := by decide

theorem test_pack_frame_full :
    (frameOf 0x1234 false false 15 [0, 1, 2, 3, 4, 5, 6, 7, 8, 9, 10, 11, 12, 13, 14]).pack =
      0x0706860585048403830282018100807800002468#159 := by decide

/-- Reason code 3 is reserved (R53, I3). -/
theorem test_unpack_reserved_reason : Record.unpack 0xAA0F#159 = none := by decide

/-! ### One step of each operation -/

/-- ENC-01, the example of R68. -/
theorem test_txSubmit_enc01 :
    (after (exec (.txSubmit enc01) State.reset)).txQ = [0xAA, 0xC2, 0x01, 0x23, 0x01, 0x02, 0x55] := by decide

/-- ENC-07: both limits broken. -/
theorem test_txSubmit_enc07 :
    (after (exec (.txSubmit (desc 0x800 false false 9 [])) State.reset)).statusOut = [.payloadTooLong] := by decide

/-- ENC-09: an extended remote frame keeps its payload, delimiters included. -/
theorem test_encodeFrame_enc09 :
    encodeFrame (desc 1 true true 3 [0xAA, 0x55, 0]) =
      .ok [0xAA, 0xF3, 0, 0, 0, 1, 0xAA, 0x55, 0, 0x55] := by decide

/-- ENC-12, the scenario of S1 (conflict C2). -/
theorem test_encodeFrame_enc12 :
    encodeFrame (desc 0x2301 false false 2 [1, 2]) = .err .identifierOutOfRange := by decide

/-- TX-01, the example of R69. -/
theorem test_txEmit :
    let t := after (exec .txEmit (block [0xAA, 0xC0, 0x07, 0xFF, 0x55] [] .idle []))
    t.txQ = [0xC0, 0x07, 0xFF, 0x55] ∧ t.bytesOut = [0xAA] := by decide

/-- PUSH-01, the example of R76. -/
theorem test_rxPush :
    after (exec (.rxPush 0xAA) State.reset) = block [] [0xAA] .scan [] := by decide

/-- PUSH-02: not enabled in SCAN. -/
theorem test_rxPush_waits :
    after (exec (.rxPush 0x07) (block [] [0xAA, 0xC0] .scan [])) = block [] [0xAA, 0xC0] .scan [] := by decide

/-- STEP-04: the prefix is dropped and the candidate is incomplete. -/
theorem test_rxStep_step04 :
    after (exec .rxStep (block [] [0x11, 0xAA, 0xC0, 0x07] .scan [])) = block [] [0xAA, 0xC0, 0x07] .idle [] := by decide

/-- STEP-07: a bad end marker. -/
theorem test_rxStep_step07 :
    after (exec .rxStep (block [] [0xAA, 0xC0, 0x07, 0xFF, 0x00, 0xAA] .scan [])) =
      block [] [0xC0, 0x07, 0xFF, 0x00, 0xAA] .scan [fe] := by decide

/-- POP-01, the example of R89. -/
theorem test_rxPop :
    let t := after (exec .rxPop (block [] [] .idle [fe, frameOf 0x7FF false false 0 []]))
    t.rxq = [frameOf 0x7FF false false 0 []] ∧ t.resultsOut = [fe] := by decide

/-- RST-01, the example of R118. -/
theorem test_reset :
    after (exec .reset (block [0x01, 0x02, 0x55] [0xAA, 0xC2, 0x01] .idle [frameOf 0x7FF false false 0 []])) =
      State.reset := by decide

/-- STEP-05, the example of R77, as its envelope kind. -/
theorem test_envStdData :
    after (exec (.envStdData 3 2) (block [] [0xAA, 0xC2, 0x01, 0x23, 0x01, 0x02, 0x55] .scan [])) =
      block [] [] .scan [frameOf 0x123 false false 2 [1, 2]] := by decide

/-- The candidate of DEC-17. -/
theorem test_envStdRemote :
    after (exec (.envStdRemote 1 5) (block [] [0xAA, 0x55, 1, 2, 3, 4, 5, 6, 7, 0x55] .scan [])) =
      block [] [] .scan [frameOf 0x102 false true 5 [3, 4, 5, 6, 7]] := by decide

/-- The candidate of DEC-09: an identifier of 2^29 or more is kept whole. -/
theorem test_envExtData :
    after (exec (.envExtData 3 0) (block [] [0xAA, 0xE0, 0xFF, 0xFF, 0xFF, 0xFF, 0x55] .scan [])) =
      block [] [] .scan [frameOf 0xFFFFFFFF true false 0 []] := by decide

/-- The candidate of DEC-08: delimiters inside the payload. -/
theorem test_envExtRemote :
    after (exec (.envExtRemote 3 3) (block [] [0xAA, 0xF3, 0, 0, 0, 1, 0xAA, 0x55, 0, 0x55] .scan [])) =
      block [] [] .scan [frameOf 0x1 true true 3 [0xAA, 0x55, 0]] := by decide

/-- STEP-11: an emitting step waits on a full queue. -/
theorem test_rxStep_step11 (s : State) (h : s.rxBuf = [0xAA, 0xC2, 0x01, 0x23, 0x01, 0x02, 0x55])
    (hfull : Config.rxqDepth ≤ s.rxq.length) : exec .rxStep s = .next s := by
  have hready : s.rxStepReady = false := by
    have he : attemptEmits s.rxBuf = true := by rw [h]; decide
    simp [State.rxStepReady, he, (canEmit_eq_false_iff s).2 hfull]
  simp [exec, execRxStep, hready]

/-! ### The step -/

/-- From reset with a type byte placed, the next step runs its envelope kind: each kind's row with zero operand bits. -/
theorem test_step_withFetchWord :
    (after (step (State.reset.withFetchWord 8 0x00))).rxq = [frameOf 0 false false 0 []] ∧
    (after (step (State.reset.withFetchWord 8 0x10))).rxq = [frameOf 0 false true 0 []] ∧
    (after (step (State.reset.withFetchWord 8 0x20))).rxq = [frameOf 0 true false 0 []] ∧
    (after (step (State.reset.withFetchWord 8 0x30))).rxq = [frameOf 0 true true 0 []] := by decide

/-- TX-03: a TX_SUBMIT offered while an envelope is being emitted waits; the byte consumer behind it has its turn. -/
theorem test_step_passes_over_a_waiting_offer :
    let s := { block [0x07, 0xFF, 0x55] [] .idle [] with offers := [.txFrameIn 0x7FF, .txByteOut] }
    (after (step s)).txQ = [0xFF, 0x55] ∧ (after (step s)).offers = [.txFrameIn 0x7FF] := by decide

/-- With nothing offered the decoder has its own turn. -/
theorem test_step_runs_the_decoder :
    after (step (block [] [0x00, 0x00, 0xAA] .scan [])) = block [] [0xAA] .idle [] := by decide

/-- From reset with nothing offered the block idles. -/
theorem test_step_idle : after (step State.reset) = State.reset := by decide

/-! ### Witnesses: concrete operands and states that meet the hypotheses of the statements -/

theorem witness_ResetKeepsTheAgentsLists : ∃ t, exec .reset (block [0x55] [0xAA] .scan [fe]) = .next t := ⟨_, rfl⟩

/-- The largest standard and extended identifiers. -/
theorem witness_TxSubmitLoadsEnvelope :
    (State.reset.txQ = [] ∧ enc02.len.toNat ≤ 8 ∧ enc02.id.toNat < (if enc02.ext then 2 ^ 29 else 2 ^ 11)) ∧
    (let d := desc 0x1FFFFFFF true false 8 [0, 1, 2, 3, 4, 5, 6, 7]
     d.len.toNat ≤ 8 ∧ d.id.toNat < (if d.ext then 2 ^ 29 else 2 ^ 11)) := by decide

theorem witness_TxSubmitPayloadTooLong : State.reset.txQ = [] ∧ (desc 1 false false 9 []).len.toNat > 8 := by decide

/-- 2^11 and 2^29, each alternative at its boundary. -/
theorem witness_TxSubmitIdentifierOutOfRange :
    (let d := desc 0x800 false false 0 []
     d.len.toNat ≤ 8 ∧ d.ext = false ∧ d.id.toNat ≥ 2048) ∧
    (let d := desc 0x20000000 true false 8 []
     d.len.toNat ≤ 8 ∧ d.ext = true ∧ d.id.toNat ≥ 536870912) := by decide

theorem witness_RefusedSubmitChangesNothing :
    ∃ t, exec (.txSubmit (desc 0x800 false false 0 [])) State.reset = .next t ∧
      t.statusOut = State.reset.statusOut ++ [.identifierOutOfRange] ∧ TxStatus.identifierOutOfRange ≠ .ok :=
  ⟨_, rfl, rfl, by decide⟩

theorem witness_RemoteFrameDiffersInOneBit :
    encodeFrame { desc 1 false true 1 [0x42] with rtr := false } = .ok [0xAA, 0xC1, 0x00, 0x01, 0x42, 0x55] := by decide

/-- ENC-16 and its descriptor with zero lanes. -/
theorem witness_UnusedLanesAreNotRead :
    ([0x42, 0xFF, 0xFF, 0xFF, 0xFF, 0xFF, 0xFF, 0xFF] : List Byte).take (desc 1 false false 1 [0x42]).len.toNat =
      (desc 1 false false 1 [0x42]).data.take (desc 1 false false 1 [0x42]).len.toNat := by decide

theorem witness_EnvelopeStructure :
    enc01.WellFormed ∧ encodeFrame enc01 = .ok [0xAA, 0xC2, 0x01, 0x23, 0x01, 0x02, 0x55] := by decide

theorem witness_TxEmitDeliversFirstByte :
    (block [0x55] [] .idle []).txQ = 0x55 :: [] ∧ (block [0xAA, 0xC0] [] .idle []).txQ = 0xAA :: [0xC0] := by decide

/-- A state in the middle of an envelope, of a candidate, and with a record waiting. -/
def midway : State := block [0x01, 0x02, 0x55] [0xAA, 0xC2, 0x01] .idle [fe]

/-- It meets the invariant (used for every statement with `Inv` among its hypotheses). -/
theorem witness_Inv : midway.Inv where
  txQ_pending :=
    .inr ⟨enc01, [0xAA, 0xC2, 0x01, 0x23, 0x01, 0x02, 0x55], 4, by decide, by decide, by decide, by decide⟩
  txQ_bound := by decide
  rxBuf_bound := by decide
  rxBuf_waiting := fun _ => ⟨rfl, by decide⟩
  rxq_bound := by
    have h := rxqDepth_pos
    simp only [midway, block, List.length_singleton]
    omega
  rxq_records := by
    intro r hr
    have h : r = fe := by simpa [midway, block] using hr
    subst h
    exact ⟨rfl, rfl, rfl⟩

theorem witness_TxHoldLiftedWithinFifteen : midway.Inv := witness_Inv

/-- The two alternatives: a byte emitted, and an envelope accepted. -/
theorem witness_TxStreamIsWholeEnvelopes :
    (let s := { midway with offers := [.txByteOut] }
     s.turn = some .txByteOut ∧ (∃ t, step s = .next t)) ∧
    (let s := { State.reset with offers := [.txFrameIn 0x7FF] }
     s.turn = some (.txFrameIn 0x7FF) ∧ (∃ t, step s = .next t)) :=
  ⟨⟨by decide, _, rfl⟩, ⟨by decide, _, rfl⟩⟩

theorem witness_RxPushAppendsByte : midway.rxMode = .idle := rfl

theorem witness_RxStepDiscardsWithoutHeader :
    ((block [] [] .scan []).rxMode = .scan ∧ 0xAA#8 ∉ (block [] [] .scan []).rxBuf) ∧
    0xAA#8 ∉ (block [] [0x55, 0x00] .scan []).rxBuf := by decide

/-- A prefix before a complete candidate with room, and before a lone header and an incomplete candidate with a full
queue. -/
theorem witness_RxStepDropsPrefix :
    (let s := block [] [0x11, 0xAA, 0xC0, 0x07, 0xFF, 0x55] .scan []
     s.rxMode = .scan ∧ 0xAA#8 ∉ ([0x11] : List Byte) ∧ s.rxBuf = [0x11] ++ 0xAA#8 :: [0xC0, 0x07, 0xFF, 0x55] ∧
       s.rxq.length < Config.rxqDepth) ∧
    (let s := block [] [0x11, 0xAA, 0xC0] .scan (List.replicate Config.rxqDepth fe)
     s.rxBuf = [0x11] ++ 0xAA#8 :: [0xC0] ∧
       ∀ (t : Byte) (tail : List Byte), [0xC0] = t :: tail →
         tail.length + 2 < 3 + (if t.getLsbD 5 then 4 else 2) + t.toNat % 16) := by
  refine ⟨⟨rfl, by decide, rfl, rxqDepth_pos⟩, rfl, ?_⟩
  intro t tail h
  injection h with h1 h2
  subst h1 h2
  decide

theorem witness_RxStepLoneHeaderWaits :
    0xAA#8 ∉ ([0x00, 0x00] : List Byte) ∧ (block [] [0x00, 0x00, 0xAA] .scan []).rxBuf = [0x00, 0x00] ++ [0xAA#8] := by
  decide

/-- One byte short of a standard candidate without payload, and of the longest candidate. -/
theorem witness_RxStepIncompleteWaits :
    ((block [] [0xAA, 0xC0, 0x07, 0xFF] .scan []).rxBuf = [] ++ 0xAA#8 :: 0xC0#8 :: [0x07, 0xFF] ∧
      ([0x07, 0xFF] : List Byte).length + 2 < 3 + (if (0xC0#8).getLsbD 5 then 4 else 2) + (0xC0#8).toNat % 16) ∧
    (List.replicate 19 0#8).length + 2 < 3 + (if (0x2F#8).getLsbD 5 then 4 else 2) + (0x2F#8).toNat % 16 := by decide

/-- A standard candidate behind a prefix with bytes after it, and the operands of the longest candidate (STEP-10). -/
theorem witness_RxStepEmitsFrame :
    (let s := block [] [0x11, 0xAA, 0xC2, 0x01, 0x23, 0x01, 0x02, 0x55, 0xAA] .scan []
     s.rxMode = .scan ∧ s.rxq.length < Config.rxqDepth ∧ 0xAA#8 ∉ ([0x11] : List Byte) ∧
     ([0x01, 0x23] : List Byte).length = (if (0xC2#8).getLsbD 5 then 4 else 2) ∧
     ([0x01, 0x02] : List Byte).length = (0xC2#8).toNat % 16 ∧
     s.rxBuf = [0x11] ++ [0xAA#8, 0xC2#8] ++ [0x01, 0x23] ++ [0x01, 0x02] ++ [0x55#8] ++ [0xAA]) ∧
    (List.replicate 4 0#8).length = (if (0x2F#8).getLsbD 5 then 4 else 2) ∧
    (List.replicate 15 0#8).length = (0x2F#8).toNat % 16 :=
  ⟨⟨rfl, rxqDepth_pos, by decide, by decide, by decide, rfl⟩, by decide, by decide⟩

theorem witness_RxStepRejectsBadEnd :
    let s := block [] [0xAA, 0xC0, 0x07, 0xFF, 0x00, 0xAA] .scan []
    s.rxMode = .scan ∧ s.rxq.length < Config.rxqDepth ∧ 0xAA#8 ∉ ([] : List Byte) ∧
    ([0x07, 0xFF] : List Byte).length + 3 = 3 + (if (0xC0#8).getLsbD 5 then 4 else 2) + (0xC0#8).toNat % 16 ∧
    (0x00#8 : Byte) ≠ 0x55#8 ∧ s.rxBuf = [] ++ [0xAA#8, 0xC0#8] ++ [0x07, 0xFF] ++ [0x00#8] ++ [0xAA] :=
  ⟨rfl, rxqDepth_pos, by decide, by decide, by decide, rfl⟩

/-- A record due with a full queue, a record due with room, and none due. -/
theorem witness_RxStepEmitsExactlyWhenComplete :
    (let s := block [] [0xAA, 0x00, 0x00, 0x00, 0x55] .scan (List.replicate Config.rxqDepth fe)
     s.rxMode = .scan ∧ 0xAA#8 ∉ ([] : List Byte) ∧ s.rxBuf = [] ++ 0xAA#8 :: 0x00#8 :: [0x00, 0x00, 0x55] ∧
       3 + (if (0x00#8).getLsbD 5 then 4 else 2) + (0x00#8).toNat % 16 ≤ ([0x00, 0x00, 0x55] : List Byte).length + 2 ∧
       Config.rxqDepth ≤ s.rxq.length) ∧
    (block [] [0xAA, 0x00, 0x00, 0x00, 0x55] .scan []).rxq.length < Config.rxqDepth ∧
    ¬ ∃ (front : List Byte) (t : Byte) (rest : List Byte), 0xAA#8 ∉ front ∧
      (block [] [] .scan []).rxBuf = front ++ 0xAA#8 :: t :: rest ∧
      3 + (if t.getLsbD 5 then 4 else 2) + t.toNat % 16 ≤ rest.length + 2 := by
  refine ⟨⟨rfl, by decide, rfl, by decide, by simp [block]⟩, rxqDepth_pos, ?_⟩
  rintro ⟨front, t, rest, _, h, _⟩
  simp [block] at h

theorem witness_RxPopDeliversOldest : midway.rxq = fe :: [] := rfl

/-- Each interface whose operation can wait, waiting; only RESET never does. -/
theorem witness_NotEnabledWaits :
    midway.ready (.txFrameIn 0x7FF) = false ∧ State.reset.ready .txByteOut = false ∧
    (block [] [0xAA] .scan []).ready (.rxByteIn 0) = false ∧ State.reset.ready .internal = false ∧
    State.reset.ready .rxResultOut = false := by decide

/-- Each kind, one byte short of its shortest candidate. -/
theorem witness_EnvelopeKindsWaitForBytes :
    (block [] [0xAA, 0xC0, 0x07, 0xFF] .scan []).rxBuf.length < 3 + (if false then 4 else 2) + (0#4).toNat ∧
    (block [] [0xAA, 0xE0, 0, 0, 0, 0] .scan []).rxBuf.length < 3 + (if true then 4 else 2) + (0#4).toNat := by decide

/-- A standard and an extended candidate; the kinds with the same `ext` share their operands. -/
theorem witness_EnvelopeKindsDecodeFrame :
    (let s := block [] [0xAA, 0xC2, 0x01, 0x23, 0x01, 0x02, 0x55] .scan []
     s.rxMode = .scan ∧ s.rxq.length < Config.rxqDepth ∧ ([0x01, 0x23] : List Byte).length = (if false then 4 else 2) ∧
     ([0x01, 0x02] : List Byte).length = (2#4).toNat ∧
     s.rxBuf = [0xAA#8, 0xC2] ++ [0x01, 0x23] ++ [0x01, 0x02] ++ [0x55#8] ++ []) ∧
    (let s := block [] [0xAA, 0xE0, 0xFF, 0xFF, 0xFF, 0xFF, 0x55, 0x01] .scan []
     s.rxMode = .scan ∧ s.rxq.length < Config.rxqDepth ∧
     ([0xFF, 0xFF, 0xFF, 0xFF] : List Byte).length = (if true then 4 else 2) ∧ ([] : List Byte).length = (0#4).toNat ∧
     s.rxBuf = [0xAA#8, 0xE0] ++ [0xFF, 0xFF, 0xFF, 0xFF] ++ [] ++ [0x55#8] ++ [0x01]) :=
  ⟨⟨rfl, rxqDepth_pos, rfl, rfl, rfl⟩, rfl, rxqDepth_pos, rfl, rfl, rfl⟩

/-- A bad end marker in a standard candidate, and a bad header in an extended one. -/
theorem witness_EnvelopeKindsRejectBadEnd :
    (let s := block [] [0xAA, 0xC0, 0x07, 0xFF, 0x00] .scan []
     s.rxMode = .scan ∧ s.rxq.length < Config.rxqDepth ∧
     ([0xC0, 0x07, 0xFF] : List Byte).length + 2 = 3 + (if false then 4 else 2) + (0#4).toNat ∧ (0x00#8 : Byte) ≠ 0x55#8 ∧
     s.rxBuf = [0xAA#8] ++ [0xC0, 0x07, 0xFF] ++ [0x00#8] ++ []) ∧
    (let s := block [] [0xAB, 0xE0, 0, 0, 0, 0, 0x55] .scan []
     s.rxMode = .scan ∧ s.rxq.length < Config.rxqDepth ∧
     ([0xE0, 0, 0, 0, 0] : List Byte).length + 2 = 3 + (if true then 4 else 2) + (0#4).toNat ∧ (0xAB#8 : Byte) ≠ 0xAA#8 ∧
     s.rxBuf = [0xAB#8] ++ [0xE0, 0, 0, 0, 0] ++ [0x55#8] ++ []) :=
  ⟨⟨rfl, rxqDepth_pos, rfl, by decide, rfl⟩, rfl, rxqDepth_pos, rfl, by decide, rfl⟩

/-- Outside SCAN, and in SCAN with a record due and a full queue. -/
theorem witness_EnvelopeKindsWaitForRoom :
    State.reset.rxMode = .idle ∧
    (let s := block [] [0xAA, 0x00, 0x00, 0x00, 0x55] .scan (List.replicate Config.rxqDepth fe)
     3 + (if false then 4 else 2) + (0#4).toNat ≤ s.rxBuf.length ∧ Config.rxqDepth ≤ s.rxq.length) :=
  ⟨rfl, by decide, by simp [block]⟩

/-- With room, and incomplete. -/
theorem witness_RxStepRunsTheEnvelopeKind :
    (let s := block [] [0x11, 0xAA, 0x00, 0x00, 0x00, 0x55] .scan []
     s.rxMode = .scan ∧ 0xAA#8 ∉ ([0x11] : List Byte) ∧ s.rxBuf = [0x11] ++ 0xAA#8 :: 0x00#8 :: [0x00, 0x00, 0x55] ∧
       s.rxq.length < Config.rxqDepth) ∧
    ([0x07, 0xFF] : List Byte).length + 2 < 3 + (if (0xC0#8).getLsbD 5 then 4 else 2) + (0xC0#8).toNat % 16 :=
  ⟨⟨rfl, by decide, rfl, rxqDepth_pos⟩, by decide⟩

/-- Each clause at its extremes: E = 0 and E = 1, L = 0 and L = 15. -/
theorem witness_TypeByteLengths :
    (0x00#8).toNat / 32 % 2 = 0 ∧ (0xDF#8).toNat / 32 % 2 = 0 ∧ (0x20#8).toNat / 32 % 2 = 1 ∧
    (0xFF#8).toNat / 32 % 2 = 1 ∧ typeByteLen 0x00 = 5 ∧ typeByteLen 0xDF = 20 ∧ typeByteLen 0x20 = 7 ∧
    typeByteLen 0xFF = 22 := by decide

theorem witness_DecodeEncodeAgree : (Instr.txSubmit enc01).wellFormed = true ∧ Instr.rxStep.wellFormed = true := by decide

theorem witness_DescriptorLayout : enc01.WellFormed := by decide

theorem witness_RecordLayout : (List.replicate 15 0xAA#8).length = 15 := by decide

theorem witness_RecordUnpackPack :
    (∀ f, frameOf 0x123 false false 2 [1, 2] = .frame f → f.data.length = 15) ∧
    ∀ f, fe = .frame f → f.data.length = 15 := by
  refine ⟨?_, fun f h => by cases h⟩
  intro f h
  cases h
  decide

/-- An enabled offer behind one that waits, and no enabled offer at all. -/
theorem witness_StepRunsTheDecodedInstruction :
    (let s := { midway with offers := [.txFrameIn 0x7FF, .rxResultOut, .rst] }
     s.offers = [.txFrameIn 0x7FF] ++ .rxResultOut :: [.rst] ∧
       (∀ u ∈ ([.txFrameIn 0x7FF] : List Transaction), s.ready u = false) ∧ s.ready .rxResultOut = true) ∧
    (let s := { State.reset with offers := [.txByteOut, .rxResultOut] }
     ∀ u ∈ s.offers, s.ready u = false) := by decide

theorem witness_AgentOrderKept :
    { midway with offers := [.txFrameIn 0x7FF, .txByteOut, .txByteOut] }.turn = some .txByteOut := by decide

theorem witness_StepKeepsTheInvariant : midway.Inv ∧ ∃ t, step midway = .next t := ⟨witness_Inv, _, rfl⟩

/-- Both halves: a pair of states that agree on one half and differ in the other. -/
theorem witness_HalvesDoNotInterfere :
    (∃ t t', exec .txEmit midway = .next t ∧ exec .txEmit (block midway.txQ [] .scan []) = .next t') ∧
    (∃ t t', exec (.rxPush 1) midway = .next t ∧
      exec (.rxPush 1) (block [] midway.rxBuf .idle midway.rxq) = .next t') :=
  ⟨⟨_, _, rfl, rfl⟩, ⟨_, _, rfl, rfl⟩⟩

theorem witness_RecordsAppearInOrder :
    let s := block [] [0xAA, 0x00, 0x00, 0x00, 0x55] .scan []
    s.turn ≠ some .rst ∧ ∃ t, step s = .next t ∧ t.rxq = [frameOf 0 false false 0 []] :=
  ⟨by decide, _, rfl, by decide⟩

theorem witness_OnlyBadEndMarkerIsEmitted :
    let s := block [] [0xAA, 0x00, 0x00, 0x00, 0x00] .scan []
    ∃ t, step s = .next t ∧ t.rxq = s.rxq ++ [fe] :=
  ⟨_, rfl, rfl⟩

theorem witness_RunEndsWithinBufferLengthPlusOne : (block [] [0xAA, 0xAA] .scan []).rxMode = .scan := rfl

theorem witness_OnePushEmitsAtMostTwentyTwo :
    midway.Inv ∧ midway.rxMode = .idle ∧ ∃ t, runInstrs (.rxPush 0x23 :: List.replicate 1 .rxStep) midway = .next t :=
  ⟨witness_Inv, rfl, _, rfl⟩

/-- The bytes of DEC-04. -/
theorem witness_NoHeaderStreamLeavesNoTrace :
    State.reset.rxBuf = [] ∧ State.reset.rxMode = .idle ∧ 0xAA#8 ∉ ([0x00, 0x11, 0x22, 0x55] : List Byte) := by decide

theorem witness_PendingBytesStay :
    let s := { midway with offers := [.txByteOut] }
    s.rxMode = .idle ∧ (∀ b, s.turn ≠ some (.rxByteIn b)) ∧ s.turn ≠ some .rst ∧ ∃ t, step s = .next t := by
  have hturn : { midway with offers := [.txByteOut] }.turn = some .txByteOut := by decide
  refine ⟨rfl, ?_, ?_, _, rfl⟩
  · intro b
    rw [hturn]
    simp
  · rw [hturn]
    simp

theorem witness_EncodedFrameDecodesToItself :
    enc01.WellFormed ∧ encodeFrame enc01 = .ok [0xAA, 0xC2, 0x01, 0x23, 0x01, 0x02, 0x55] ∧
    State.reset.rxBuf = [] ∧ State.reset.rxMode = .idle ∧ State.reset.rxq.length < Config.rxqDepth :=
  ⟨by decide, by decide, rfl, rfl, rxqDepth_pos⟩

/-- The frames and the corrupt byte of DEC-07. -/
theorem witness_CorruptedEndMarkerRecovers :
    enc01.WellFormed ∧ enc02.WellFormed ∧ encodeFrame enc01 = .ok [0xAA, 0xC2, 0x01, 0x23, 0x01, 0x02, 0x55] ∧
    encodeFrame enc02 = .ok [0xAA, 0xC0, 0x07, 0xFF, 0x55] ∧ (0x00#8 : Byte) ≠ 0x55#8 ∧
    0xAA#8 ∉ (([0xAA, 0xC2, 0x01, 0x23, 0x01, 0x02, 0x55] : List Byte).dropLast ++ [0x00#8]).drop 1 ∧
    State.reset.rxBuf = [] ∧ State.reset.rxMode = .idle ∧ State.reset.rxq = [] := by decide

/-- A buffer at which the decoder waits, one byte short of its candidate, and a record in the queue. -/
theorem witness_FeedEqualsSourceFeed :
    let s := block [] [0xAA, 0xC0, 0x07, 0xFF] .idle [fe]
    WaitingBuffer s.rxBuf ∧ s.rxMode = .idle :=
  ⟨⟨rfl, by decide⟩, rfl⟩

/-- One record into an empty queue, and one into a queue that is full. -/
theorem witness_FeedEndsOrWaitsWithoutLoss :
    let s := block [] [0xAA, 0xC0, 0x07, 0xFF] .idle []
    let full := { s with rxq := List.replicate Config.rxqDepth fe }
    (WaitingBuffer s.rxBuf ∧ s.rxMode = .idle ∧ s.rxq.length ≤ Config.rxqDepth ∧
      s.rxq.length + (sourceFeed s.rxBuf [0x55]).1.length ≤ Config.rxqDepth) ∧
    (WaitingBuffer full.rxBuf ∧ full.rxMode = .idle ∧ full.rxq.length ≤ Config.rxqDepth ∧
      Config.rxqDepth < full.rxq.length + (sourceFeed full.rxBuf [0x55]).1.length) := by
  have hone : (sourceFeed [0xAA, 0xC0, 0x07, 0xFF] [0x55]).1.length = 1 := by decide
  have hpos := rxqDepth_pos
  refine ⟨⟨⟨rfl, by decide⟩, rfl, Nat.zero_le _, ?_⟩, ⟨rfl, by decide⟩, rfl, (List.length_replicate ..).le, ?_⟩
  · change 0 + (sourceFeed [0xAA, 0xC0, 0x07, 0xFF] [0x55]).1.length ≤ Config.rxqDepth
    omega
  · change Config.rxqDepth <
      (List.replicate Config.rxqDepth fe).length + (sourceFeed [0xAA, 0xC0, 0x07, 0xFF] [0x55]).1.length
    rw [List.length_replicate]
    omega

/-- A run that ends in IDLE, and one that ends in SCAN. -/
theorem witness_RecordsAreAFunctionOfThePushedBytes :
    State.reset.rxBuf = [] ∧ State.reset.rxMode = .idle ∧
    .rst ∉ ([.rxByteIn 0xAA, .internal, .txFrameIn 0x7FF, .rxByteIn 0xC0] : List Transaction) ∧
    (∃ t, runTransactions [.rxByteIn 0xAA, .internal, .txFrameIn 0x7FF, .rxByteIn 0xC0] State.reset = .next t ∧
      t.rxMode = .scan) ∧
    ∃ t, runTransactions [.rxByteIn 0xAA, .internal] State.reset = .next t ∧ t.rxMode = .idle :=
  ⟨rfl, rfl, by decide, ⟨_, rfl, rfl⟩, _, rfl, rfl⟩

/-- A run of two operations from a state with the invariant, and one whose end is quiescent. -/
theorem witness_QuiescenceIsReached :
    midway.Inv ∧ (∃ t, EnabledRun [.txByteOut, .rxResultOut] midway t) ∧
    State.reset.Inv ∧ EnabledRun [] State.reset State.reset ∧ State.reset.ready .txByteOut = false ∧
    State.reset.ready .internal = false ∧ State.reset.ready .rxResultOut = false :=
  ⟨witness_Inv, ⟨_, by decide, _, rfl, by decide, _, rfl, rfl⟩,
   ⟨.inl rfl, by decide, by decide, fun _ => trivial, Nat.zero_le _, by simp [State.reset]⟩, rfl, by decide, by decide,
   by decide⟩

/-- R61: `pop` with nothing in the queue waits and stays the first line. -/
theorem test_script_line_waits :
    runScript 3 [.op .rxResultOut, .op (.rxByteIn 0xAA)] State.reset =
      .next ([.op .rxResultOut, .op (.rxByteIn 0xAA)], State.reset) := rfl

/-- R62: `loopback` moves a byte from the TX output to the RX input, and its `run` discards it (R78). -/
theorem test_script_loopback :
    runScript 5 [.loopback] (block [0x55] [] .idle []) =
      .next ([], { block [] [] .idle [] with bytesOut := [0x55] }) := rfl

/-- S5: the chunks of the second line of its table, fed to the source's decoder. -/
theorem test_source_chunks :
    sourceFeedChunks [] [[0xAA, 0xC0], [0x07, 0xFF, 0x55, 0xAA], [0xC2, 0x01, 0x23, 0x01, 0x02, 0x55]] =
      ([frameOf 0x7FF false false 0 [], frameOf 0x123 false false 2 [1, 2]], []) := by decide

end Sys2Proof.Tests
end

section
/-! PROOFS of the scope rules (spec/00_scope.md R1, R7, R8): which operation a step runs, the order within one agent, and
the independence of the two halves. -/

namespace Sys2Proof.Machine

/-! ### The operation a step runs (R7, R8) -/

/-- The first enabled offer has the turn: the converse of `turn_eq_some`. -/
theorem turn_of_offers (s : State) (before behind : List Transaction) (t : Transaction)
    (hoffers : s.offers = before ++ t :: behind) (hwait : ∀ u ∈ before, s.ready u = false)
    (hready : s.ready t = true) : s.turn = some t := by
  rw [State.turn, List.find?_eq_some_iff_append]
  exact ⟨hready, before, behind, hoffers, fun u hu => by simp [hwait u hu]⟩

/-- Exactly the first enabled offer leaves the list. -/
theorem granted_of_offers (s : State) (before behind : List Transaction) (t : Transaction)
    (hoffers : s.offers = before ++ t :: behind) (hwait : ∀ u ∈ before, s.ready u = false)
    (hready : s.ready t = true) : s.granted = { s with offers := before ++ behind } := by
  have herase : s.offers.eraseP s.ready = before ++ behind := by
    rw [hoffers, List.eraseP_append_right _ (fun u hu => by simp [hwait u hu]), List.eraseP_cons_of_pos hready]
  rw [State.granted, herase]
  rfl

/-- Without an enabled offer there is no turn: the converse of `turn_eq_none`. -/
theorem turn_of_no_ready (s : State) (hwait : ∀ u ∈ s.offers, s.ready u = false) : s.turn = none := by
  rw [State.turn, List.find?_eq_none]
  exact fun u hu => by simp [hwait u hu]

theorem step_of_turn (s : State) (t : Transaction) (hturn : s.turn = some t) :
    step s = exec (decodeTransaction t) s.granted := by
  rw [step, State.fetch, hturn]

theorem step_of_no_turn (s : State) (hturn : s.turn = none) : step s = exec .rxStep s := by
  rw [step, State.fetch, hturn, (turn_eq_none s hturn).2]

/-- Settles O42: the list of offers decides the turn, and the turn decides the step. -/
theorem stepRunsTheDecodedInstruction : Obligations.StepRunsTheDecodedInstruction := by
  unfold Obligations.StepRunsTheDecodedInstruction
  constructor
  · intro s before t behind hoffers hwait hready
    rw [step_of_turn s t (turn_of_offers s before behind t hoffers hwait hready),
      granted_of_offers s before behind t hoffers hwait hready]
  · intro s hwait
    exact step_of_no_turn s (turn_of_no_ready s hwait)

/-! ### The order within one agent (R8) -/

/-- The enable condition of an interface (R60). -/
def State.portReady (s : State) : Port → Bool
  | .txFrameIn   => !s.txBusy
  | .txByteOut   => s.txBusy
  | .rxByteIn    => s.rxReady
  | .internal    => s.rxStepReady
  | .rxResultOut => s.resValid
  | .rst         => true

/-- Whether a transaction is enabled depends on its interface and not on the word it carries. -/
theorem ready_eq_portReady (s : State) (t : Transaction) : s.ready t = s.portReady t.port := by
  cases t <;> rfl

/-- Settles O43: an offer at the interface of the one taken would be enabled too, so the step does not pass over it. -/
theorem agentOrderKept : Obligations.AgentOrderKept := by
  unfold Obligations.AgentOrderKept
  intro s t hturn
  obtain ⟨hready, before, behind, hoffers, hwait, hgranted⟩ := turn_eq_some s t hturn
  refine ⟨before, behind, hoffers, ?_, hgranted⟩
  intro u hu hport
  have hsame : s.ready u = s.ready t := by rw [ready_eq_portReady, ready_eq_portReady, hport]
  rw [hwait u hu, hready] at hsame
  cases hsame

/-! ### The two halves (R1, R36)

An operation of one half commutes with replacing that half's fields. This one law says that it writes nothing outside its
half (replace the half of a state by itself) and that it reads nothing outside its half (put the half into another state). -/

/-- `s` with the TX half of `u`: the queue, and what TX_SUBMIT and TX_EMIT have returned. -/
def State.withTxHalf (s u : State) : State :=
  { s with txQ := u.txQ, statusOut := u.statusOut, bytesOut := u.bytesOut }

/-- `s` with the RX half of `u`: the buffer, the mode, the result queue, and what RX_POP has returned. -/
def State.withRxHalf (s u : State) : State :=
  { s with rxBuf := u.rxBuf, rxMode := u.rxMode, rxq := u.rxq, resultsOut := u.resultsOut }

theorem withTxHalf_eq_self (s u : State) (hq : u.txQ = s.txQ) (hstatus : u.statusOut = s.statusOut)
    (hbytes : u.bytesOut = s.bytesOut) : s.withTxHalf u = s := by
  rw [State.withTxHalf, hq, hstatus, hbytes]

theorem withRxHalf_eq_self (s u : State) (hbuf : u.rxBuf = s.rxBuf) (hmode : u.rxMode = s.rxMode)
    (hq : u.rxq = s.rxq) (hresults : u.resultsOut = s.resultsOut) : s.withRxHalf u = s := by
  rw [State.withRxHalf, hbuf, hmode, hq, hresults]

/-! The TX operations on a replaced TX half -/

theorem execTxSubmit_withTxHalf (d : Descriptor) (s u v : State) (h : execTxSubmit d u = .next v) :
    execTxSubmit d (s.withTxHalf u) = .next (s.withTxHalf v) := by
  rcases execTxSubmit_cases d u v h with ⟨hq, rfl⟩ | ⟨hq, e, he, rfl⟩ | ⟨hq, e, he, rfl⟩
  · simp [execTxSubmit, State.txBusy, State.withTxHalf, hq]
  · simp [execTxSubmit, State.txBusy, State.withTxHalf, hq, he, State.raiseValidationError_eq]
  · simp [execTxSubmit, State.txBusy, State.withTxHalf, hq, he, State.setTxQ, State.deliverStatus]

theorem execTxEmit_withTxHalf (s u v : State) (h : execTxEmit u = .next v) :
    execTxEmit (s.withTxHalf u) = .next (s.withTxHalf v) := by
  rcases execTxEmit_cases u v h with ⟨hq, rfl⟩ | ⟨b, q, hq, rfl⟩
  · simp [execTxEmit, State.withTxHalf, hq]
  · simp [execTxEmit, State.withTxHalf, hq, State.setTxQ, State.deliverByte]

theorem exec_withTxHalf (i : Instr) (hi : (∃ d, i = .txSubmit d) ∨ i = .txEmit) (s u v : State)
    (h : exec i u = .next v) : exec i (s.withTxHalf u) = .next (s.withTxHalf v) := by
  rcases hi with ⟨d, rfl⟩ | rfl
  · exact execTxSubmit_withTxHalf d s u v h
  · exact execTxEmit_withTxHalf s u v h

/-! The RX operations on a replaced RX half -/

theorem execRxPush_withRxHalf (b : Byte) (s u v : State) (h : execRxPush b u = .next v) :
    execRxPush b (s.withRxHalf u) = .next (s.withRxHalf v) := by
  rcases execRxPush_cases b u v h with ⟨hmode, rfl⟩ | ⟨hmode, rfl⟩
  · simp [execRxPush, State.rxReady, State.withRxHalf, hmode]
  · simp [execRxPush, State.rxReady, State.withRxHalf, hmode, State.setRxBuf, State.setRxMode]

theorem execRxPop_withRxHalf (s u v : State) (h : execRxPop u = .next v) :
    execRxPop (s.withRxHalf u) = .next (s.withRxHalf v) := by
  rcases execRxPop_cases u v h with ⟨hq, rfl⟩ | ⟨r, q, hq, rfl⟩
  · simp [execRxPop, State.withRxHalf, hq]
  · simp [execRxPop, State.withRxHalf, hq, State.setRxq, State.deliverRecord]

@[simp] theorem withRxHalf_rxBuf (s u : State) : (s.withRxHalf u).rxBuf = u.rxBuf := rfl
@[simp] theorem withRxHalf_rxMode (s u : State) : (s.withRxHalf u).rxMode = u.rxMode := rfl
@[simp] theorem withRxHalf_canEmit (s u : State) : (s.withRxHalf u).canEmit = u.canEmit := rfl
@[simp] theorem withRxHalf_rxStepReady (s u : State) : (s.withRxHalf u).rxStepReady = u.rxStepReady := rfl
@[simp] theorem withRxHalf_setRxBuf (s u : State) (buf : List Byte) :
    (s.withRxHalf u).setRxBuf buf = s.withRxHalf (u.setRxBuf buf) := rfl
@[simp] theorem withRxHalf_setRxMode (s u : State) (m : RxMode) :
    (s.withRxHalf u).setRxMode m = s.withRxHalf (u.setRxMode m) := rfl
@[simp] theorem withRxHalf_emitRecord (s u : State) (r : Record) :
    (s.withRxHalf u).emitRecord r = s.withRxHalf (u.emitRecord r) := rfl
@[simp] theorem withRxHalf_raiseBadEndMarker (s u : State) :
    (s.withRxHalf u).raiseBadEndMarker = s.withRxHalf u.raiseBadEndMarker := rfl

/-- Every branch of the decision reads and writes the RX half alone. -/
theorem decideCandidate_withRxHalf (s u : State) (ext rtr : Bool) (len : BitVec 4) :
    (s.withRxHalf u).decideCandidate ext rtr len = s.withRxHalf (u.decideCandidate ext rtr len) := by
  cases hmode : u.rxMode with
  | idle => simp [State.decideCandidate, hmode]
  | scan =>
    by_cases hlen : u.rxBuf.length < envelopeLen ext len
    · simp [State.decideCandidate, hmode, hlen]
    · cases hroom : u.canEmit with
      | false => simp [State.decideCandidate, hmode, hlen, hroom]
      | true =>
        cases hvalid : candidateValid ext len u.rxBuf <;>
          simp [State.decideCandidate, hmode, hlen, hroom, hvalid]

theorem execRxStep_withRxHalf (s u v : State) (h : execRxStep u = .next v) :
    execRxStep (s.withRxHalf u) = .next (s.withRxHalf v) := by
  rw [execRxStep] at h
  split at h
  next hready =>
    split at h
    next hnone =>
      cases h
      simp [execRxStep, hready, hnone]
    next b hone =>
      cases h
      simp [execRxStep, hready, hone]
    next b ty rest hmore =>
      rw [execEnvelope_eq] at h
      cases h
      simp [execRxStep, hready, hmore, execEnvelope_eq, decideCandidate_withRxHalf]
  next hwait =>
    cases h
    simp [execRxStep, hwait]

theorem exec_withRxHalf (i : Instr) (hi : (∃ b, i = .rxPush b) ∨ i = .rxStep ∨ i = .rxPop) (s u v : State)
    (h : exec i u = .next v) : exec i (s.withRxHalf u) = .next (s.withRxHalf v) := by
  rcases hi with ⟨b, rfl⟩ | rfl | rfl
  · exact execRxPush_withRxHalf b s u v h
  · exact execRxStep_withRxHalf s u v h
  · exact execRxPop_withRxHalf s u v h

/-! The frame and the independence of each half -/

/-- An outcome that is known twice is one state. -/
theorem next_unique {o : Host.Outcome State Fault Refusal} {t t' : State} (h : o = .next t) (h' : o = .next t') :
    t = t' := by
  rw [h] at h'
  injection h'

/-- A TX operation on a state whose TX half is `s`'s changes just the TX half, to the one it makes of `s`'s. -/
theorem exec_txHalf_eq (i : Instr) (hi : (∃ d, i = .txSubmit d) ∨ i = .txEmit) (s s' t t' : State)
    (h : exec i s = .next t) (h' : exec i s' = .next t') (hq : s.txQ = s'.txQ) (hstatus : s.statusOut = s'.statusOut)
    (hbytes : s.bytesOut = s'.bytesOut) : t' = s'.withTxHalf t := by
  have hmoved := exec_withTxHalf i hi s' s t h
  rw [withTxHalf_eq_self s' s hq hstatus hbytes] at hmoved
  exact next_unique h' hmoved

/-- An RX operation on a state whose RX half is `s`'s changes just the RX half, to the one it makes of `s`'s. -/
theorem exec_rxHalf_eq (i : Instr) (hi : (∃ b, i = .rxPush b) ∨ i = .rxStep ∨ i = .rxPop) (s s' t t' : State)
    (h : exec i s = .next t) (h' : exec i s' = .next t') (hbuf : s.rxBuf = s'.rxBuf) (hmode : s.rxMode = s'.rxMode)
    (hq : s.rxq = s'.rxq) (hresults : s.resultsOut = s'.resultsOut) : t' = s'.withRxHalf t := by
  have hmoved := exec_withRxHalf i hi s' s t h
  rw [withRxHalf_eq_self s' s hbuf hmode hq hresults] at hmoved
  exact next_unique h' hmoved

/-- Settles O47: for each half, the frame is `exec_txHalf_eq` or `exec_rxHalf_eq` at one state taken twice, and the
independence the same law at two states. -/
theorem halvesDoNotInterfere : Obligations.HalvesDoNotInterfere := by
  unfold Obligations.HalvesDoNotInterfere
  intro i s s' t t' h h'
  refine ⟨fun htx => ⟨?_, fun hq hstatus hbytes => ?_⟩, fun hrx => ⟨?_, fun hbuf hmode hq hresults => ?_⟩⟩
  · have hframe : t = s.withTxHalf t := exec_txHalf_eq i htx s s t t h h rfl rfl rfl
    rw [hframe]
    exact ⟨rfl, rfl, rfl, rfl⟩
  · rw [exec_txHalf_eq i htx s s' t t' h h' hq hstatus hbytes]
    exact ⟨rfl, rfl, rfl⟩
  · have hframe : t = s.withRxHalf t := exec_rxHalf_eq i hrx s s t t h h rfl rfl rfl rfl
    rw [hframe]
    exact ⟨rfl, rfl, rfl⟩
  · rw [exec_rxHalf_eq i hrx s s' t t' h h' hbuf hmode hq hresults]
    exact ⟨rfl, rfl, rfl, rfl⟩

end Sys2Proof.Machine
end

section
/-! PROOFS of the block's invariant (spec/10_state.md R14 to R19, spec/41_decoder.md R91): the reset state has it, and every
operation keeps it. -/

namespace Sys2Proof.Machine

/-- Settles O45: every list of the reset state is empty. -/
theorem resetHasTheInvariant : Obligations.ResetHasTheInvariant where
  txQ_pending := .inl rfl
  txQ_bound := Nat.zero_le _
  rxBuf_bound := Nat.zero_le _
  rxBuf_waiting := fun _ => trivial
  rxq_bound := Nat.zero_le _
  rxq_records := fun _ hr => nomatch hr

/-! ### Lengths of an envelope and of its parts (R44, R45) -/

theorem idWidth_le (ext : Bool) : idWidth ext ≤ 4 := by
  cases ext <;> decide

/-- No envelope is longer than `BUF_CAP` (R4). -/
theorem envelopeLen_le (ext : Bool) (len : BitVec 4) : envelopeLen ext len ≤ 22 := by
  have hwidth := idWidth_le ext
  have hlen := len.isLt
  rw [envelopeLen]
  omega

@[simp] theorem idBytes_length (ext : Bool) (id : BitVec 32) : (idBytes ext id).length = idWidth ext := by
  cases ext <;> rfl

/-- The encoder builds envelopes of the length that their type byte implies. -/
theorem encodeFrame_ok_length (d : Descriptor) (e : List Byte) (hwf : d.WellFormed) (h : encodeFrame d = .ok e) :
    e.length = envelopeLen d.ext d.len := by
  obtain ⟨hlen, -, rfl⟩ := encodeFrame_ok d e h
  have hlanes : d.data.length = 8 := hwf
  simp only [List.length_append, List.length_cons, List.length_nil, idBytes_length, List.length_take, hlanes,
    envelopeLen]
  omega

theorem encodeFrame_ok_length_le (d : Descriptor) (e : List Byte) (hwf : d.WellFormed) (h : encodeFrame d = .ok e) :
    e.length ≤ 15 := by
  have hlen := (encodeFrame_ok d e h).1
  have hwidth := idWidth_le d.ext
  rw [encodeFrame_ok_length d e hwf h, envelopeLen]
  omega

theorem unpack_wellFormed (record : BitVec 102) : (Descriptor.unpack record).WellFormed := lanesOf_length _ _

/-! ### The TX queue (R14, R15) -/

theorem pendingEnvelope_of_encode (d : Descriptor) (e : List Byte) (hwf : d.WellFormed) (h : encodeFrame d = .ok e) :
    PendingEnvelope e := by
  have hlen := encodeFrame_ok_length d e hwf h
  rw [envelopeLen] at hlen
  exact .inr ⟨d, e, 0, hwf, h, by omega, rfl⟩

/-- What is left of an envelope after one more byte is still the rest of that envelope. -/
theorem pendingEnvelope_tail (b : Byte) (q : List Byte) (h : PendingEnvelope (b :: q)) : PendingEnvelope q := by
  rcases h with h | ⟨d, e, k, hwf, he, hk, hdrop⟩
  · cases h
  · have hq : q = e.drop (k + 1) := by rw [← List.drop_drop, ← hdrop, List.drop_one, List.tail_cons]
    rcases Nat.lt_or_ge (k + 1) e.length with hmore | hlast
    · exact .inr ⟨d, e, k + 1, hwf, he, hmore, hq⟩
    · exact .inl (by rw [hq, List.drop_eq_nil_of_le hlast])

/-! ### The waiting buffer (R16, R19) -/

/-- A buffer that waits has room for one more byte. -/
theorem waitingBuffer_length_lt (buf : List Byte) (h : WaitingBuffer buf) : buf.length < 22 := by
  match buf, h with
  | [], _ => decide
  | [_], _ => exact (by decide : 1 < 22)
  | _ :: t :: rest, ⟨_, hshort⟩ => exact Nat.lt_of_lt_of_le hshort (envelopeLen_le (typeExt t) (typeLen t))

theorem fromHeader_length_le (buf : List Byte) : (fromHeader buf).length ≤ buf.length :=
  (List.dropWhile_suffix _).length_le

theorem eq_header_of_fromHeader_eq_cons (buf rest : List Byte) (b : Byte) (h : fromHeader buf = b :: rest) :
    b = hdrByte := by
  rcases fromHeader_split buf with ⟨-, hnil⟩ | ⟨-, kept, -, -, hkept⟩
  · rw [hnil] at h
    cases h
  · rw [hkept] at h
    cases h
    rfl

/-! ### The records (R47, R54, R91) -/

theorem foldl_bigEndian_lt (bs : List Byte) (v : Nat) :
    bs.foldl (fun v b => v * 256 + b.toNat) v < (v + 1) * 256 ^ bs.length := by
  induction bs generalizing v with
  | nil => simp
  | cons b bs ih =>
    have hb := b.isLt
    calc bs.foldl (fun v b => v * 256 + b.toNat) (v * 256 + b.toNat)
        < (v * 256 + b.toNat + 1) * 256 ^ bs.length := ih _
      _ ≤ ((v + 1) * 256) * 256 ^ bs.length := Nat.mul_le_mul_right _ (by omega)
      _ = (v + 1) * 256 ^ (b :: bs).length := by rw [List.length_cons, Nat.pow_succ]; ring

theorem bigEndian_lt (bs : List Byte) : bigEndian bs < 256 ^ bs.length := by
  simpa [bigEndian] using foldl_bigEndian_lt bs 0

theorem memRead_length (buf : List Byte) (a n : Nat) (h : a + n ≤ buf.length) : (memRead buf a n).length = n := by
  rw [memRead, List.length_take, List.length_drop]
  omega

/-- A whole candidate gives a record with fifteen lanes, zero from `len` on, and an identifier that fits its field. -/
theorem frameRecord_wellFormed (ext rtr : Bool) (len : BitVec 4) (buf : List Byte)
    (h : envelopeLen ext len ≤ buf.length) : (frameRecord ext rtr len buf).WellFormed := by
  rw [envelopeLen] at h
  have hlen := len.isLt
  have hpayload := memRead_length buf (2 + idWidth ext) len.toNat (by omega)
  refine ⟨?lanes, ?zeros, ?identifier⟩
  case lanes =>
    rw [List.length_append, hpayload, List.length_replicate]
    omega
  case zeros =>
    intro k (hge : len.toNat ≤ k) hlt
    rw [List.getElem?_append_right (by rw [hpayload]; exact hge), hpayload, List.getElem?_replicate]
    exact if_pos (by omega)
  case identifier =>
    rintro rfl
    have hid := bigEndian_lt (memRead buf 2 (idWidth false))
    rw [memRead_length buf 2 (idWidth false) (by omega)] at hid
    exact Nat.lt_of_le_of_lt (Nat.mod_le _ _) hid

theorem badEndMarkerRecord_wellFormed : badEndMarkerRecord.WellFormed := ⟨rfl, rfl, rfl⟩

/-! ### Updates that keep the invariant -/

namespace State.Inv

variable {s : State}

/-- The lists that stand for the agents are no part of the invariant. -/
theorem granted (h : s.Inv) : s.granted.Inv := { h with }

theorem withTxQ (h : s.Inv) (q : List Byte) (status : List TxStatus) (out : List Byte) (hpending : PendingEnvelope q)
    (hbound : q.length ≤ 15) : State.Inv { s with txQ := q, statusOut := status, bytesOut := out } :=
  { h with txQ_pending := hpending, txQ_bound := hbound }

/-- In SCAN the buffer needs its bound only. -/
theorem scanning (h : s.Inv) (buf : List Byte) (hbound : buf.length ≤ 22) :
    State.Inv { s with rxBuf := buf, rxMode := .scan } :=
  { h with rxBuf_bound := hbound, rxBuf_waiting := fun hidle => nomatch hidle }

/-- A run of the decoder ends in one of the three waiting shapes. -/
theorem waiting (h : s.Inv) (buf : List Byte) (hwaiting : WaitingBuffer buf) :
    State.Inv { s with rxBuf := buf, rxMode := .idle } :=
  { h with
    rxBuf_bound := (waitingBuffer_length_lt buf hwaiting).le
    rxBuf_waiting := fun _ => hwaiting }

/-- One more record, where there is room for it. -/
theorem emitting (h : s.Inv) (r : Record) (hr : r.WellFormed) (hroom : s.rxq.length < Config.rxqDepth) :
    (s.emitRecord r).Inv :=
  { h with
    rxq_bound := by
      rw [emitRecord_rxq, List.length_append]
      exact hroom
    rxq_records := by
      intro x hx
      rcases List.mem_append.1 hx with hold | hnew
      · exact h.rxq_records x hold
      · rwa [List.mem_singleton.1 hnew] }

end State.Inv

/-! ### Operations that keep the invariant -/

theorem execTxSubmit_keeps_inv (d : Descriptor) (s t : State) (hwf : d.WellFormed) (hs : s.Inv)
    (h : execTxSubmit d s = .next t) : t.Inv := by
  rcases execTxSubmit_cases d s t h with ⟨-, rfl⟩ | ⟨-, e, -, rfl⟩ | ⟨-, e, he, rfl⟩
  · exact hs
  · exact hs.withTxQ _ _ _ hs.txQ_pending hs.txQ_bound
  · exact hs.withTxQ _ _ _ (pendingEnvelope_of_encode d e hwf he) (encodeFrame_ok_length_le d e hwf he)

theorem execTxEmit_keeps_inv (s t : State) (hs : s.Inv) (h : execTxEmit s = .next t) : t.Inv := by
  rcases execTxEmit_cases s t h with ⟨-, rfl⟩ | ⟨b, q, hq, rfl⟩
  · exact hs
  · have hpending := hs.txQ_pending
    have hbound := hs.txQ_bound
    rw [hq] at hpending hbound
    exact hs.withTxQ _ _ _ (pendingEnvelope_tail b q hpending) (Nat.le_of_succ_le hbound)

theorem execRxPush_keeps_inv (b : Byte) (s t : State) (hs : s.Inv) (h : execRxPush b s = .next t) : t.Inv := by
  rcases execRxPush_cases b s t h with ⟨-, rfl⟩ | ⟨hidle, rfl⟩
  · exact hs
  · have hshort := waitingBuffer_length_lt s.rxBuf (hs.rxBuf_waiting hidle)
    refine hs.scanning _ ?_
    rw [List.length_append]
    exact hshort

/-- The decision of the candidate at the front of the buffer. That its fields are those of the type byte in the buffer makes
a short candidate a waiting shape; that its first byte is the header makes `skipped` the header. -/
theorem decideCandidate_keeps_inv (s : State) (ty : Byte) (rest : List Byte) (hs : s.Inv)
    (hbuf : s.rxBuf = hdrByte :: ty :: rest) :
    (s.decideCandidate (typeExt ty) (typeRtr ty) (typeLen ty)).Inv := by
  have hdrop (n : Nat) : (s.rxBuf.drop n).length ≤ 22 :=
    Nat.le_trans (by rw [List.length_drop]; exact Nat.sub_le _ _) hs.rxBuf_bound
  rcases decideCandidate_cases s (typeExt ty) (typeRtr ty) (typeLen ty) with
    ⟨-, heq⟩ | ⟨-, hshort, heq⟩ | ⟨-, -, -, heq⟩ | ⟨hscan, hwhole, hroom, -, heq⟩ | ⟨hscan, -, hroom, -, heq⟩
  · rwa [heq]
  · rw [heq]
    rw [hbuf] at hshort
    exact hs.waiting s.rxBuf (hbuf ▸ ⟨rfl, hshort⟩)
  · rwa [heq]
  · have hframe := frameRecord_wellFormed (typeExt ty) (typeRtr ty) (typeLen ty) s.rxBuf hwhole
    have hafter := (hs.emitting _ hframe hroom).scanning _ (hdrop (envelopeLen (typeExt ty) (typeLen ty)))
    rwa [heq, hscan]
  · have hafter := (hs.emitting _ badEndMarkerRecord_wellFormed hroom).scanning _ (hdrop 1)
    have hfront : s.rxBuf.getD 0 0#8 = hdrByte := by rw [hbuf]; rfl
    rwa [heq, hfront, hscan]

theorem execRxStep_keeps_inv (s t : State) (hs : s.Inv) (h : execRxStep s = .next t) : t.Inv := by
  rcases execRxStep_cases s t h with
    ⟨-, rfl⟩ | ⟨-, -, rfl⟩ | ⟨-, b, hlone, rfl⟩ | ⟨hscan, -, b, ty, rest, hfrom, rfl⟩
  · exact hs
  · exact hs.waiting [] trivial
  · exact hs.waiting [b] (eq_header_of_fromHeader_eq_cons s.rxBuf [] b hlone)
  · obtain rfl := eq_header_of_fromHeader_eq_cons s.rxBuf (ty :: rest) b hfrom
    have hbound := Nat.le_trans (fromHeader_length_le s.rxBuf) hs.rxBuf_bound
    rw [hfrom] at hbound
    have hstripped := hs.scanning _ hbound
    rw [← hscan] at hstripped
    exact decideCandidate_keeps_inv _ ty rest hstripped rfl

theorem execRxPop_keeps_inv (s t : State) (hs : s.Inv) (h : execRxPop s = .next t) : t.Inv := by
  rcases execRxPop_cases s t h with ⟨-, rfl⟩ | ⟨r, q, hq, rfl⟩
  · exact hs
  · have hbound := hs.rxq_bound
    have hrecords := hs.rxq_records
    rw [hq] at hbound hrecords
    exact { hs with
      rxq_bound := Nat.le_of_succ_le hbound
      rxq_records := fun x hx => hrecords x (List.mem_cons_of_mem r hx) }

/-- RESET needs nothing of the state before: the four elements are those of the reset state. -/
theorem execReset_has_inv (s t : State) (h : execReset s = .next t) : t.Inv := by
  cases h
  have hreset : State.reset.Inv := resetHasTheInvariant
  exact { hreset with }

/-- Every operation keeps the invariant. An envelope kind run by itself need not, as its fields may not be those of the
buffer's type byte (log entry 7); no transaction decodes to one. -/
theorem exec_decodeTransaction_keeps_inv (u : Transaction) (s t : State) (hs : s.Inv)
    (h : exec (decodeTransaction u) s = .next t) : t.Inv := by
  cases u with
  | txFrameIn record => exact execTxSubmit_keeps_inv _ s t (unpack_wellFormed record) hs h
  | txByteOut => exact execTxEmit_keeps_inv s t hs h
  | rxByteIn b => exact execRxPush_keeps_inv b s t hs h
  | internal => exact execRxStep_keeps_inv s t hs h
  | rxResultOut => exact execRxPop_keeps_inv s t hs h
  | rst => exact execReset_has_inv s t h

/-- Settles O46: a step is the operation that has its turn, or the decoder's own. -/
theorem stepKeepsTheInvariant : Obligations.StepKeepsTheInvariant := by
  unfold Obligations.StepKeepsTheInvariant
  intro s t hs h
  cases hturn : s.turn with
  | some u =>
    rw [step_of_turn s u hturn] at h
    exact exec_decodeTransaction_keeps_inv u s.granted t hs.granted h
  | none =>
    rw [step_of_no_turn s hturn] at h
    exact execRxStep_keeps_inv s t hs h

end Sys2Proof.Machine
end

section
/-! PROOFS of the stream rules (spec/20_memory.md R34, R35): what a step adds to the bytes the TX half has put out, and to
the records the RX half has put out. -/

namespace Sys2Proof.Machine

/-- The bytes put out so far: delivered, then still to be delivered (R14, R35). -/
def State.txStream (s : State) : List Byte := s.bytesOut ++ s.txQ

/-- The records put out so far: taken, then still queued (R18, R34). -/
def State.recordStream (s : State) : List Record := s.resultsOut ++ s.rxq

/-- A step without RESET runs the transaction that has its turn, or the decoder's own; RESET is neither. -/
theorem step_runs_transaction (s t : State) (hrst : s.turn ≠ some .rst) (h : step s = .next t) :
    ∃ u, u ≠ .rst ∧ (u = .internal ∨ s.turn = some u) ∧ exec (decodeTransaction u) s.granted = .next t := by
  cases hturn : s.turn with
  | some u =>
    rw [step_of_turn s u hturn] at h
    exact ⟨u, fun hu => hrst (hu ▸ hturn), .inr rfl, h⟩
  | none =>
    rw [step_of_no_turn s hturn] at h
    rw [(turn_eq_none s hturn).2]
    exact ⟨.internal, nofun, .inl rfl, h⟩

/-! ### The TX byte stream (R35) -/

/-- An operation of the RX half leaves the byte stream, by the frame of R36. -/
theorem exec_rx_txStream (i : Instr) (hi : (∃ b, i = .rxPush b) ∨ i = .rxStep ∨ i = .rxPop) (s t : State)
    (h : exec i s = .next t) : t.txStream = s.txStream := by
  obtain ⟨⟨hq, -, hbytes⟩, -⟩ := (halvesDoNotInterfere i s s t t h h).2 hi
  rw [State.txStream, State.txStream, hq, hbytes]

/-- TX_EMIT moves a byte from one part of the stream to the other. -/
theorem execTxEmit_txStream (s t : State) (h : execTxEmit s = .next t) : t.txStream = s.txStream := by
  rcases execTxEmit_cases s t h with ⟨-, rfl⟩ | ⟨b, q, hq, rfl⟩
  · rfl
  · simp [State.txStream, hq]

/-- TX_SUBMIT leaves the byte stream, or puts the whole envelope into an empty queue. -/
theorem execTxSubmit_txStream (d : Descriptor) (s t : State) (h : execTxSubmit d s = .next t) :
    t.txStream = s.txStream ∨
    ∃ e, s.txQ = [] ∧ encodeFrame d = .ok e ∧ t.txQ = e ∧ t.bytesOut = s.bytesOut := by
  rcases execTxSubmit_cases d s t h with ⟨-, rfl⟩ | ⟨-, e, -, rfl⟩ | ⟨hq, e, he, rfl⟩
  · exact .inl rfl
  · exact .inl rfl
  · exact .inr ⟨e, hq, he, rfl, rfl⟩

/-- RESET apart, an operation leaves the byte stream or is a TX_SUBMIT that adds a whole envelope. -/
theorem exec_decodeTransaction_txStream (u : Transaction) (hu : u ≠ .rst) (s t : State)
    (h : exec (decodeTransaction u) s = .next t) :
    t.txStream = s.txStream ∨
    ∃ record e, u = .txFrameIn record ∧ s.txQ = [] ∧ encodeFrame (Descriptor.unpack record) = .ok e ∧
      t.txQ = e ∧ t.bytesOut = s.bytesOut := by
  cases u with
  | txFrameIn record =>
    rcases execTxSubmit_txStream _ s t h with hsame | ⟨e, hadded⟩
    · exact .inl hsame
    · exact .inr ⟨record, e, rfl, hadded⟩
  | txByteOut => exact .inl (execTxEmit_txStream s t h)
  | rxByteIn b => exact .inl (exec_rx_txStream _ (.inl ⟨b, rfl⟩) s t h)
  | internal => exact .inl (exec_rx_txStream _ (.inr (.inl rfl)) s t h)
  | rxResultOut => exact .inl (exec_rx_txStream _ (.inr (.inr rfl)) s t h)
  | rst => exact absurd rfl hu

/-- Settles O14: of the operations a step can run, just TX_SUBMIT adds bytes, and the decoder's own turn is none. -/
theorem txStreamIsWholeEnvelopes : Obligations.TxStreamIsWholeEnvelopes := by
  unfold Obligations.TxStreamIsWholeEnvelopes
  intro s t hrst h
  obtain ⟨u, hu, hturn, hexec⟩ := step_runs_transaction s t hrst h
  rcases exec_decodeTransaction_txStream u hu s.granted t hexec with hsame | ⟨record, e, rfl, hadded⟩
  · exact .inl hsame
  · exact .inr ⟨record, e, hturn.resolve_left nofun, hadded⟩

/-! ### The record stream (R34, R110) -/

/-- From `s` to `t` the record stream grows at its end, by at most one record. -/
def State.GrowsByAtMostOne (s t : State) : Prop :=
  ∃ fresh : List Record, fresh.length ≤ 1 ∧ t.recordStream = s.recordStream ++ fresh

theorem growsByAtMostOne_of_same (s t : State) (h : t.recordStream = s.recordStream) : s.GrowsByAtMostOne t :=
  ⟨[], Nat.zero_le 1, by rw [h, List.append_nil]⟩

theorem growsByAtMostOne_of_emit (s t : State) (r : Record) (hresults : t.resultsOut = s.resultsOut)
    (hq : t.rxq = s.rxq ++ [r]) : s.GrowsByAtMostOne t :=
  ⟨[r], Nat.le_refl 1, by rw [State.recordStream, State.recordStream, hresults, hq, List.append_assoc]⟩

/-- An operation of the TX half leaves the record stream, by the frame of R36. -/
theorem exec_tx_recordStream (i : Instr) (hi : (∃ d, i = .txSubmit d) ∨ i = .txEmit) (s t : State)
    (h : exec i s = .next t) : t.recordStream = s.recordStream := by
  obtain ⟨⟨-, -, hq, hresults⟩, -⟩ := (halvesDoNotInterfere i s s t t h h).1 hi
  rw [State.recordStream, State.recordStream, hq, hresults]

theorem execRxPush_recordStream (b : Byte) (s t : State) (h : execRxPush b s = .next t) :
    t.recordStream = s.recordStream := by
  rcases execRxPush_cases b s t h with ⟨-, rfl⟩ | ⟨-, rfl⟩ <;> rfl

/-- RX_POP moves a record from one part of the stream to the other. -/
theorem execRxPop_recordStream (s t : State) (h : execRxPop s = .next t) : t.recordStream = s.recordStream := by
  rcases execRxPop_cases s t h with ⟨-, rfl⟩ | ⟨r, q, hq, rfl⟩
  · rfl
  · simp [State.recordStream, hq]

/-- The decision of a candidate emits a record where it is a Frame or a BadEndMarker, and else none (R83 to R87). -/
theorem decideCandidate_growsByAtMostOne (s : State) (ext rtr : Bool) (len : BitVec 4) :
    s.GrowsByAtMostOne (s.decideCandidate ext rtr len) := by
  rcases decideCandidate_cases s ext rtr len with
    ⟨-, heq⟩ | ⟨-, -, heq⟩ | ⟨-, -, -, heq⟩ | ⟨-, -, -, -, heq⟩ | ⟨-, -, -, -, heq⟩
  · exact growsByAtMostOne_of_same _ _ (by rw [heq])
  · exact growsByAtMostOne_of_same _ _ (by rw [heq]; rfl)
  · exact growsByAtMostOne_of_same _ _ (by rw [heq])
  · exact growsByAtMostOne_of_emit _ _ _ (by rw [heq]) (by rw [heq])
  · exact growsByAtMostOne_of_emit _ _ _ (by rw [heq]) (by rw [heq])

/-- RX_STEP puts out no record of its own: dropping bytes leaves the stream, and the candidate's decision adds at most
one record. -/
theorem execRxStep_growsByAtMostOne (s t : State) (h : execRxStep s = .next t) : s.GrowsByAtMostOne t := by
  rcases execRxStep_cases s t h with ⟨-, rfl⟩ | ⟨-, -, rfl⟩ | ⟨-, b, -, rfl⟩ | ⟨-, -, b, ty, rest, -, rfl⟩
  · exact growsByAtMostOne_of_same _ _ rfl
  · exact growsByAtMostOne_of_same _ _ rfl
  · exact growsByAtMostOne_of_same _ _ rfl
  · exact decideCandidate_growsByAtMostOne { s with rxBuf := b :: ty :: rest } _ _ _

/-- RESET apart, an operation loses no record and adds at most one, at the end. -/
theorem exec_decodeTransaction_growsByAtMostOne (u : Transaction) (hu : u ≠ .rst) (s t : State)
    (h : exec (decodeTransaction u) s = .next t) : s.GrowsByAtMostOne t := by
  cases u with
  | txFrameIn record => exact growsByAtMostOne_of_same s t (exec_tx_recordStream _ (.inl ⟨_, rfl⟩) s t h)
  | txByteOut => exact growsByAtMostOne_of_same s t (exec_tx_recordStream _ (.inr rfl) s t h)
  | rxByteIn b => exact growsByAtMostOne_of_same s t (execRxPush_recordStream b s t h)
  | internal => exact execRxStep_growsByAtMostOne s t h
  | rxResultOut => exact growsByAtMostOne_of_same s t (execRxPop_recordStream s t h)
  | rst => exact absurd rfl hu

/-- Settles O48: of the operations a step can run, just RX_STEP adds a record, and it adds at most one. -/
theorem recordsAppearInOrder : Obligations.RecordsAppearInOrder := by
  unfold Obligations.RecordsAppearInOrder
  intro s t hrst h
  obtain ⟨u, hu, -, hexec⟩ := step_runs_transaction s t hrst h
  exact exec_decodeTransaction_growsByAtMostOne u hu s.granted t hexec

end Sys2Proof.Machine
end

section
/-! PROOFS of the encoding rules (spec/30_encoding.md R41 to R60): the fields of the type byte, of the descriptor and of the
result record as numbers, the agreement of decode and encode, the opcode table, and the enable conditions. -/

namespace Sys2Proof.Machine

/-! ### A field of a word as a number -/

theorem extractLsb'_toNat_div {n : Nat} (w : BitVec n) (start width : Nat) :
    (w.extractLsb' start width).toNat = w.toNat / 2 ^ start % 2 ^ width := by
  rw [BitVec.extractLsb'_toNat, Nat.shiftRight_eq_div_pow]

theorem getLsbD_toNat_div {n : Nat} (w : BitVec n) (i : Nat) : (w.getLsbD i).toNat = w.toNat / 2 ^ i % 2 := by
  rw [← BitVec.testBit_toNat, Nat.toNat_testBit]

theorem extractLsb'_eq_of_div {n width : Nat} (w : BitVec n) (start : Nat) (v : BitVec width)
    (h : w.toNat / 2 ^ start % 2 ^ width = v.toNat) : w.extractLsb' start width = v :=
  BitVec.eq_of_toNat_eq (by rw [extractLsb'_toNat_div, h])

theorem getLsbD_eq_of_div {n : Nat} (w : BitVec n) (i : Nat) (b : Bool) (h : w.toNat / 2 ^ i % 2 = b.toNat) :
    w.getLsbD i = b :=
  by
  rw [← BitVec.testBit_toNat, Nat.testBit_eq_decide_div_mod_eq, h]
  cases b <;> rfl

/-! ### The type byte (R41, R43, R45) -/

theorem typeMark_toNat (t : Byte) : (typeMark t).toNat = t.toNat / 64 := by
  have ht := t.isLt
  rw [typeMark, extractLsb'_toNat_div]
  omega

theorem typeExt_toNat (t : Byte) : (typeExt t).toNat = t.toNat / 32 % 2 := getLsbD_toNat_div t 5

theorem typeRtr_toNat (t : Byte) : (typeRtr t).toNat = t.toNat / 16 % 2 := getLsbD_toNat_div t 4

theorem typeLen_toNat (t : Byte) : (typeLen t).toNat = t.toNat % 16 := by
  rw [typeLen, extractLsb'_toNat_div]
  omega

/-- `n(t)` over the bits of the type byte (R45). -/
theorem typeByteLen_eq (t : Byte) : typeByteLen t = 3 + (if t.getLsbD 5 then 4 else 2) + t.toNat % 16 := by
  rw [typeByteLen, envelopeLen, typeLen_toNat]
  rfl

/-- Settles O32: `E` is 0 or 1 and gives the width of the identifier; `L` is at most 15. -/
theorem typeByteLengths : Obligations.TypeByteLengths := by
  unfold Obligations.TypeByteLengths
  intro t
  have hext := typeExt_toNat t
  have hlen := typeByteLen_eq t
  rw [← typeExt] at hlen
  cases hE : typeExt t with
  | false =>
    simp only [hE, Bool.toNat_false, Bool.false_eq_true, if_false] at hext hlen
    rw [if_pos hext.symm]
    omega
  | true =>
    simp only [hE, Bool.toNat_true, if_true] at hext hlen
    rw [if_neg (by omega)]
    omega

/-! ### The envelope kinds (R55) -/

/-- The envelope kind with the flags `E` and `R`: the four rows of R55 as one. -/
def envelopeKind (ext rtr : Bool) (mark : BitVec 2) (len : BitVec 4) : Instr :=
  match ext, rtr with
  | false, false => .envStdData mark len
  | false, true  => .envStdRemote mark len
  | true,  false => .envExtData mark len
  | true,  true  => .envExtRemote mark len

theorem decodeTypeByte_eq (t : Byte) :
    decodeTypeByte t = envelopeKind (typeExt t) (typeRtr t) (typeMark t) (typeLen t) := rfl

theorem encode_envelopeKind (ext rtr : Bool) (mark : BitVec 2) (len : BitVec 4) :
    encode (envelopeKind ext rtr mark len) = .typeByte (encodeTypeByte mark ext rtr len) := by
  cases ext <;> cases rtr <;> rfl

theorem envelopeKind_wellFormed (ext rtr : Bool) (mark : BitVec 2) (len : BitVec 4) :
    (envelopeKind ext rtr mark len).wellFormed = true := by
  cases ext <;> cases rtr <;> rfl

theorem decodeCode_encode_envelopeKind (ext rtr : Bool) (mark : BitVec 2) (len : BitVec 4) :
    decodeCode (encode (envelopeKind ext rtr mark len)) = envelopeKind ext rtr mark len := by
  simp only [encode_envelopeKind, decodeCode, decodeTypeByte_eq, typeExt_encodeTypeByte, typeRtr_encodeTypeByte,
    typeMark_encodeTypeByte, typeLen_encodeTypeByte]

/-- Settles O31: bits 5:4 are the number `2E + R`, which selects the kind. -/
theorem kindFromTypeByteBits : Obligations.KindFromTypeByteBits := by
  unfold Obligations.KindFromTypeByteBits
  intro t
  have hkind : t.toNat / 16 % 4 = 2 * (typeExt t).toNat + (typeRtr t).toNat := by
    rw [typeExt_toNat, typeRtr_toNat]
    omega
  have hmark : BitVec.ofNat 2 (t.toNat / 64) = typeMark t := by
    rw [← typeMark_toNat, BitVec.ofNat_toNat, BitVec.setWidth_eq]
  have hlen : BitVec.ofNat 4 (t.toNat % 16) = typeLen t := by
    rw [← typeLen_toNat, BitVec.ofNat_toNat, BitVec.setWidth_eq]
  simp only [hkind, hmark, hlen, decodeTypeByte_eq]
  cases typeExt t <;> cases typeRtr t <;> rfl

/-! ### Payload lanes in a packed word (R50, R52) -/

theorem lanesValue_div_mod (bs : List Byte) (k : Nat) : lanesValue bs / 256 ^ k % 256 = (bs.getD k 0#8).toNat := by
  induction bs generalizing k with
  | nil => simp [lanesValue]
  | cons b bs ih =>
    have hb := b.isLt
    cases k with
    | zero =>
      simp only [lanesValue, Nat.pow_zero, Nat.div_one, List.getD_cons_zero]
      omega
    | succ k =>
      have hrest : (b.toNat + 256 * lanesValue bs) / 256 = lanesValue bs := by omega
      rw [lanesValue, Nat.pow_succ', ← Nat.div_div_eq_div_mul, hrest, List.getD_cons_succ, ih]

/-- Lane `k` of a word whose lanes are its bits from `start` on. -/
theorem lane_of_div {w start : Nat} {bs : List Byte} (h : w / 2 ^ start = lanesValue bs) (k : Nat) :
    w / 2 ^ (start + 8 * k) % 256 = (bs.getD k 0#8).toNat := by
  rw [Nat.pow_add, Nat.pow_mul, ← Nat.div_div_eq_div_mul, h]
  exact lanesValue_div_mod bs k

/-- The lanes read back from such a word. -/
theorem lanesOf_extractLsb' {n : Nat} (w : BitVec n) (start : Nat) (bs : List Byte)
    (h : w.toNat / 2 ^ start = lanesValue bs) :
    lanesOf bs.length (w.extractLsb' start (8 * bs.length)).toNat = bs := by
  have hlt : lanesValue bs < 2 ^ (8 * bs.length) := by
    rw [Nat.pow_mul]
    exact lanesValue_lt bs
  rw [extractLsb'_toNat_div, h, Nat.mod_eq_of_lt hlt, lanesOf_lanesValue]

/-! ### The descriptor (R50) -/

/-- The layout of R50, its lanes as one number. -/
theorem descriptor_pack_fields (d : Descriptor) (h : d.WellFormed) :
    d.pack.toNat % 2 ^ 32 = d.id.toNat ∧ d.pack.toNat / 2 ^ 32 % 2 = d.ext.toNat ∧
    d.pack.toNat / 2 ^ 33 % 2 = d.rtr.toNat ∧ d.pack.toNat / 2 ^ 34 % 16 = d.len.toNat ∧
    d.pack.toNat / 2 ^ 38 = lanesValue d.data := by
  have hid := d.id.isLt
  have hext := d.ext.toNat_lt
  have hrtr := d.rtr.toNat_lt
  have hlen := d.len.isLt
  rw [Descriptor.pack_toNat d h]
  omega

/-- Settles O38: the layout with lane `k` read from the lanes' number. -/
theorem descriptorLayout : Obligations.DescriptorLayout := by
  unfold Obligations.DescriptorLayout
  intro d h
  obtain ⟨hid, hext, hrtr, hlen, hlanes⟩ := descriptor_pack_fields d h
  exact ⟨hid, hext, hrtr, hlen, fun k _ => lane_of_div hlanes k⟩

theorem descriptor_unpack_pack (d : Descriptor) (h : d.WellFormed) : Descriptor.unpack d.pack = d := by
  obtain ⟨hid, hext, hrtr, hlen, hlanes⟩ := descriptor_pack_fields d h
  have hdata := lanesOf_extractLsb' d.pack 38 d.data hlanes
  rw [show d.data.length = 8 from h] at hdata
  rw [Descriptor.unpack, extractLsb'_eq_of_div d.pack 0 d.id (by rwa [Nat.pow_zero, Nat.div_one]),
    getLsbD_eq_of_div _ _ _ hext, getLsbD_eq_of_div _ _ _ hrtr, extractLsb'_eq_of_div d.pack 34 d.len hlen, hdata]

theorem descriptor_pack_unpack (record : BitVec 102) : (Descriptor.unpack record).pack = record := by
  have hrecord := record.isLt
  have hlanes : lanesValue (lanesOf 8 (record.extractLsb' 38 64).toNat) = (record.extractLsb' 38 64).toNat :=
    lanesValue_lanesOf 8 _ (record.extractLsb' 38 64).isLt
  apply BitVec.eq_of_toNat_eq
  rw [Descriptor.pack_toNat _ (unpack_wellFormed record)]
  simp only [Descriptor.unpack, hlanes]
  simp only [extractLsb'_toNat_div, getLsbD_toNat_div]
  omega

/-! ### Decode and encode -/

/-- Settles O34: the fields of a type byte and of a descriptor read back, and a transaction is its interface and word. -/
theorem decodeEncodeAgree : Obligations.DecodeEncodeAgree := by
  unfold Obligations.DecodeEncodeAgree
  intro i hwf
  cases i with
  | envStdData mark len => exact decodeCode_encode_envelopeKind false false mark len
  | envStdRemote mark len => exact decodeCode_encode_envelopeKind false true mark len
  | envExtData mark len => exact decodeCode_encode_envelopeKind true false mark len
  | envExtRemote mark len => exact decodeCode_encode_envelopeKind true true mark len
  | txSubmit d =>
    have hd : d.WellFormed := of_decide_eq_true hwf
    rw [encode, decodeCode, decodeTransaction, descriptor_unpack_pack d hd]
  | txEmit | rxPush b | rxStep | rxPop | reset => rfl

/-- Settles O35: the fields of a type byte and of a descriptor are all of its bits. -/
theorem encodeDecodeAgree : Obligations.EncodeDecodeAgree := by
  unfold Obligations.EncodeDecodeAgree
  intro c
  cases c with
  | typeByte t => rw [decodeCode, decodeTypeByte_eq, encode_envelopeKind, encodeTypeByte_fields]
  | offered t =>
    cases t with
    | txFrameIn record => rw [decodeCode, decodeTransaction, encode, descriptor_pack_unpack]
    | txByteOut | rxByteIn b | internal | rxResultOut | rst => rfl

/-- Settles O36: only a descriptor has a check, and an unpacked one has its eight lanes. -/
theorem decodedIsWellFormed : Obligations.DecodedIsWellFormed := by
  unfold Obligations.DecodedIsWellFormed
  intro c
  cases c with
  | typeByte t => exact envelopeKind_wellFormed _ _ _ _
  | offered t =>
    cases t with
    | txFrameIn record => exact decide_eq_true (unpack_wellFormed record)
    | txByteOut | rxByteIn b | internal | rxResultOut | rst => rfl

/-- The word of an instruction fits the instruction's own row of the opcode table and no other. -/
theorem encode_fits_own_row (i : Instr) : Laws.TableRow.Statement i := by
  cases i with
  | envStdData mark len => exact Laws.TableRow.envStdData mark len
  | envStdRemote mark len => exact Laws.TableRow.envStdRemote mark len
  | envExtData mark len => exact Laws.TableRow.envExtData mark len
  | envExtRemote mark len => exact Laws.TableRow.envExtRemote mark len
  | txSubmit d => exact Laws.TableRow.txSubmit d
  | txEmit => exact Laws.TableRow.txEmit
  | rxPush b => exact Laws.TableRow.rxPush b
  | rxStep => exact Laws.TableRow.rxStep
  | rxPop => exact Laws.TableRow.rxPop
  | reset => exact Laws.TableRow.reset

/-- Settles O37: every word is the word of the instruction it decodes to, so that instruction's row is its one row. -/
theorem everyWordHasOneRow : Obligations.EveryWordHasOneRow := by
  unfold Obligations.EveryWordHasOneRow
  intro c
  have hrow := encode_fits_own_row (decodeCode c)
  rwa [Laws.TableRow.Statement, encodeDecodeAgree c] at hrow

/-- Settles O33: five type bytes, each read off its bits, and one descriptor. -/
theorem specWordsDecode : Obligations.SpecWordsDecode := by
  unfold Obligations.SpecWordsDecode
  exact ⟨rfl, rfl, rfl, rfl, rfl, by decide⟩

/-! ### The result record (R52, R53) -/

theorem frame_pack_toNat (f : FrameRecord) (h : f.data.length = 15) :
    (Record.frame f).pack.toNat =
      ((((lanesValue f.data * 2 ^ 4 + f.len.toNat) * 2 + f.rtr.toNat) * 2 + f.ext.toNat) * 2 ^ 32 + f.id.toNat) * 2 := by
  have hlt := lanesValue_lt f.data
  rw [h] at hlt
  have hlanes : (BitVec.ofNat 120 (lanesValue f.data)).toNat = lanesValue f.data := by
    rw [BitVec.toNat_ofNat]
    exact Nat.mod_eq_of_lt (by simpa using hlt)
  simp only [Record.pack, append_toNat, hlanes, ofBool_toNat, BitVec.toNat_ofNat, Nat.zero_mod, Nat.pow_one]
  rw [Nat.add_zero]

/-- The layout of a Frame, its lanes as one number. -/
theorem frame_pack_fields (f : FrameRecord) (h : f.data.length = 15) :
    (Record.frame f).pack.toNat % 2 = 0 ∧ (Record.frame f).pack.toNat / 2 % 2 ^ 32 = f.id.toNat ∧
    (Record.frame f).pack.toNat / 2 ^ 33 % 2 = f.ext.toNat ∧ (Record.frame f).pack.toNat / 2 ^ 34 % 2 = f.rtr.toNat ∧
    (Record.frame f).pack.toNat / 2 ^ 35 % 16 = f.len.toNat ∧
    (Record.frame f).pack.toNat / 2 ^ 39 = lanesValue f.data := by
  have hid := f.id.isLt
  have hext := f.ext.toNat_lt
  have hrtr := f.rtr.toNat_lt
  have hlen := f.len.isLt
  rw [frame_pack_toNat f h]
  omega

theorem framingError_pack_toNat (reason : FramingReason) (count : BitVec 5) (skipped : Byte) :
    (Record.framingError reason count skipped).pack.toNat =
      ((skipped.toNat * 2 ^ 5 + count.toNat) * 2 ^ 2 + reason.code.toNat) * 2 + 1 := by
  simp only [Record.pack, append_toNat, BitVec.toNat_ofNat, Nat.zero_mod, Nat.zero_mul, Nat.zero_add,
    Nat.pow_one]

/-- The layout of a FramingError. -/
theorem framingError_pack_fields (reason : FramingReason) (count : BitVec 5) (skipped : Byte) :
    (Record.framingError reason count skipped).pack.toNat % 2 = 1 ∧
    (Record.framingError reason count skipped).pack.toNat / 2 % 4 = reason.code.toNat ∧
    (Record.framingError reason count skipped).pack.toNat / 2 ^ 3 % 32 = count.toNat ∧
    (Record.framingError reason count skipped).pack.toNat / 2 ^ 8 % 256 = skipped.toNat ∧
    (Record.framingError reason count skipped).pack.toNat / 2 ^ 16 = 0 := by
  have hreason := reason.code.isLt
  have hcount := count.isLt
  have hskipped := skipped.isLt
  rw [framingError_pack_toNat]
  omega

/-- Settles O39: the two layouts, and the codes of the two reasons. -/
theorem recordLayout : Obligations.RecordLayout := by
  unfold Obligations.RecordLayout
  refine ⟨?frame, ?framingError, rfl, rfl, ?reserved⟩
  case frame =>
    intro f h
    obtain ⟨hkind, hid, hext, hrtr, hlen, hlanes⟩ := frame_pack_fields f h
    exact ⟨hkind, hid, hext, hrtr, hlen, fun k _ => lane_of_div hlanes k⟩
  case framingError =>
    intro reason count skipped
    obtain ⟨hkind, hreason, hrest⟩ := framingError_pack_fields reason count skipped
    refine ⟨hkind, hreason.trans ?_, hrest⟩
    cases reason <;> rfl
  case reserved =>
    intro reason
    cases reason <;> decide

theorem framingReason_ofCode_code (reason : FramingReason) : FramingReason.ofCode reason.code = some reason := by
  cases reason <;> rfl

theorem unpack_pack_frame (f : FrameRecord) (h : f.data.length = 15) :
    Record.unpack (Record.frame f).pack = some (.frame f) := by
  obtain ⟨hkind, hid, hext, hrtr, hlen, hlanes⟩ := frame_pack_fields f h
  generalize (Record.frame f).pack = w at *
  have hdata := lanesOf_extractLsb' w 39 f.data hlanes
  rw [h] at hdata
  rw [Record.unpack, getLsbD_eq_of_div w 0 false (by rwa [Nat.pow_zero, Nat.div_one])]
  simp only
  rw [extractLsb'_eq_of_div w 1 f.id hid, getLsbD_eq_of_div w 33 f.ext hext, getLsbD_eq_of_div w 34 f.rtr hrtr,
    extractLsb'_eq_of_div w 35 f.len hlen, hdata]

theorem unpack_pack_framingError (reason : FramingReason) (count : BitVec 5) (skipped : Byte) :
    Record.unpack (Record.framingError reason count skipped).pack = some (.framingError reason count skipped) := by
  obtain ⟨hkind, hreason, hcount, hskipped, hzero⟩ := framingError_pack_fields reason count skipped
  generalize (Record.framingError reason count skipped).pack = w at *
  rw [Record.unpack, getLsbD_eq_of_div w 0 true (by rwa [Nat.pow_zero, Nat.div_one])]
  simp only
  rw [if_pos (extractLsb'_eq_of_div w 16 0#143 (by rw [hzero]; rfl)), extractLsb'_eq_of_div w 1 reason.code hreason,
    extractLsb'_eq_of_div w 3 count hcount, extractLsb'_eq_of_div w 8 skipped hskipped, framingReason_ofCode_code]
  rfl

/-- Settles O40: bit 0 tells the kind, and the fields of each kind read back. -/
theorem recordUnpackPack : Obligations.RecordUnpackPack := by
  unfold Obligations.RecordUnpackPack
  intro r h
  cases r with
  | frame f => exact unpack_pack_frame f (h f rfl)
  | framingError reason count skipped => exact unpack_pack_framingError reason count skipped

/-- Settles O41: the three statuses in turn. -/
theorem statusCodes : Obligations.StatusCodes := by
  unfold Obligations.StatusCodes
  refine ⟨rfl, rfl, rfl, ?_, rfl⟩
  intro st
  cases st <;> decide

/-! ### Enable conditions (R12, R60, R87) -/

theorem txBusy_iff (s : State) : s.txBusy = true ↔ s.txQ ≠ [] := by
  rw [State.txBusy, Bool.not_eq_true', List.isEmpty_eq_false_iff]

theorem not_txBusy_iff (s : State) : (!s.txBusy) = true ↔ s.txQ = [] := by
  rw [State.txBusy, Bool.not_not, List.isEmpty_iff]

theorem rxReady_iff (s : State) : s.rxReady = true ↔ s.rxMode = .idle := by
  rw [State.rxReady, beq_iff_eq]

theorem not_rxReady_iff (s : State) : (!s.rxReady) = true ↔ s.rxMode = .scan := by
  rw [State.rxReady]
  cases s.rxMode <;> decide

theorem resValid_iff (s : State) : s.resValid = true ↔ s.rxq ≠ [] := by
  rw [State.resValid, Bool.not_eq_true', List.isEmpty_eq_false_iff]

/-- The decoder's turn waits just where a record is due and the queue is full (R87). -/
theorem rxStepReady_iff (s : State) :
    s.rxStepReady = true ↔
      s.rxMode = .scan ∧ (s.rxq.length < Config.rxqDepth ∨ ¬ attemptEmits s.rxBuf = true) := by
  rw [State.rxStepReady, Bool.and_eq_true, Bool.or_eq_true, not_rxReady_iff, canEmit_iff, Bool.not_eq_true',
    Bool.not_eq_true, or_comm]

/-- Settles O24: the status signals over the elements, and for RX_STEP the record that is due over the bytes. -/
theorem enableConditions : Obligations.EnableConditions := by
  unfold Obligations.EnableConditions
  intro s record b
  refine ⟨not_txBusy_iff s, txBusy_iff s, rxReady_iff s, resValid_iff s, rfl, ?_⟩
  have hready := rxStepReady_iff s
  simp only [attemptEmits_iff_candidate, typeByteLen_eq] at hready
  exact hready

end Sys2Proof.Machine
end

section
/-! PROOFS of the encoder rules (spec/40_encoder.md R63 to R72): which descriptors are accepted and what their envelope is,
the fields of an envelope read back, the two TX operations, and the round trip through the decoder. -/

namespace Sys2Proof.Machine

/-! ### The descriptors in range and their envelope (R64, R65) -/

/-- The envelope of R64, as header, type byte and the rest. -/
def frameEnvelope (d : Descriptor) : List Byte :=
  hdrByte :: encoderTypeByte d.ext d.rtr d.len :: (idBytes d.ext d.id ++ (d.data.take d.len.toNat ++ [endByte]))

theorem descriptorInRange_iff (d : Descriptor) :
    DescriptorInRange d ↔ d.len.toNat ≤ 8 ∧ d.id.toNat < idLimit d.ext := Iff.rfl

/-- The order of the encoder's checks: the length, then the identifier, then the envelope. -/
theorem encodeFrame_cases (d : Descriptor) :
    (DescriptorInRange d ∧ encodeFrame d = .ok (frameEnvelope d)) ∨
    (d.len.toNat > 8 ∧ encodeFrame d = .err .payloadTooLong) ∨
    (d.len.toNat ≤ 8 ∧ d.id.toNat ≥ idLimit d.ext ∧ encodeFrame d = .err .identifierOutOfRange) := by
  rw [encodeFrame]
  split
  next hlong => exact .inr (.inl ⟨hlong, rfl⟩)
  next hlen =>
    have hlen := Nat.not_lt.1 hlen
    split
    next hwide => exact .inr (.inr ⟨hlen, hwide, rfl⟩)
    next hid => exact .inl ⟨⟨hlen, Nat.not_le.1 hid⟩, by simp [frameEnvelope]⟩

theorem encodeFrame_of_inRange (d : Descriptor) (h : DescriptorInRange d) : encodeFrame d = .ok (frameEnvelope d) := by
  obtain ⟨hlen, hid⟩ := (descriptorInRange_iff d).1 h
  rcases encodeFrame_cases d with ⟨-, hok⟩ | ⟨hlong, -⟩ | ⟨-, hwide, -⟩
  · exact hok
  · exact absurd hlen (Nat.not_le.2 hlong)
  · exact absurd hid (Nat.not_lt.2 hwide)

theorem encodeFrame_ok_iff (d : Descriptor) (e : List Byte) :
    encodeFrame d = .ok e ↔ DescriptorInRange d ∧ e = frameEnvelope d := by
  constructor
  · intro he
    obtain ⟨hlen, hid, -⟩ := encodeFrame_ok d e he
    have hrange : DescriptorInRange d := ⟨hlen, hid⟩
    rw [encodeFrame_of_inRange d hrange] at he
    injection he with heq
    exact ⟨hrange, heq.symm⟩
  · rintro ⟨hrange, rfl⟩
    exact encodeFrame_of_inRange d hrange

theorem idLimit_le_iff (ext : Bool) (n : Nat) :
    idLimit ext ≤ n ↔ (ext = false ∧ n ≥ 2 ^ 11) ∨ (ext = true ∧ n ≥ 2 ^ 29) := by
  cases ext <;> simp [idLimit]

/-- Settles O8: the three cases of the encoder exclude each other, by their result and by their condition. -/
theorem encodeAcceptsExactlyTheInvariant : Obligations.EncodeAcceptsExactlyTheInvariant := by
  unfold Obligations.EncodeAcceptsExactlyTheInvariant
  intro d
  rw [← idLimit_le_iff, descriptorInRange_iff]
  rcases encodeFrame_cases d with ⟨hrange, heq⟩ | ⟨hlong, heq⟩ | ⟨hlen, hwide, heq⟩
  · obtain ⟨hlen, hid⟩ := (descriptorInRange_iff d).1 hrange
    simp [heq, hlen, hid]
  · simp [heq, hlong]
  · simp [heq, hlen, hwide]

/-- Settles O10: the checks do not read the lanes, and the envelope reads the first `len` of them. -/
theorem unusedLanesAreNotRead : Obligations.UnusedLanesAreNotRead := by
  unfold Obligations.UnusedLanesAreNotRead
  intro d lanes hlanes
  rw [encodeFrame, encodeFrame]
  simp only [hlanes]

/-! ### The type byte of an envelope (R42, R66) -/

/-- The encoder's type byte is the one with its marker and the descriptor's fields. -/
theorem encoderTypeByte_eq (ext rtr : Bool) (len : BitVec 4) :
    encoderTypeByte ext rtr len = encodeTypeByte formatMark ext rtr len := by
  revert ext rtr len
  decide

@[simp] theorem typeExt_encoderTypeByte (ext rtr : Bool) (len : BitVec 4) :
    typeExt (encoderTypeByte ext rtr len) = ext := by
  rw [encoderTypeByte_eq, typeExt_encodeTypeByte]

@[simp] theorem typeRtr_encoderTypeByte (ext rtr : Bool) (len : BitVec 4) :
    typeRtr (encoderTypeByte ext rtr len) = rtr := by
  rw [encoderTypeByte_eq, typeRtr_encodeTypeByte]

@[simp] theorem typeLen_encoderTypeByte (ext rtr : Bool) (len : BitVec 4) :
    typeLen (encoderTypeByte ext rtr len) = len := by
  rw [encoderTypeByte_eq, typeLen_encodeTypeByte]

@[simp] theorem typeByteLen_encoderTypeByte (ext rtr : Bool) (len : BitVec 4) :
    typeByteLen (encoderTypeByte ext rtr len) = envelopeLen ext len := by
  rw [typeByteLen, typeExt_encoderTypeByte, typeLen_encoderTypeByte]

theorem encoderTypeByte_toNat (ext rtr : Bool) (len : BitVec 4) :
    (encoderTypeByte ext rtr len).toNat = 192 + 32 * ext.toNat + 16 * rtr.toNat + len.toNat := by
  rw [encoderTypeByte_eq, encodeTypeByte]
  simp only [append_toNat, ofBool_toNat, formatMark, BitVec.toNat_ofNat]
  omega

theorem encoderTypeByte_remote (ext : Bool) (len : BitVec 4) :
    encoderTypeByte ext true len = encoderTypeByte ext false len ||| 0x10#8 := by
  revert ext len
  decide

/-- Settles O9: neither the checks nor the other bytes of the envelope read `rtr`. -/
theorem remoteFrameDiffersInOneBit : Obligations.RemoteFrameDiffersInOneBit := by
  unfold Obligations.RemoteFrameDiffersInOneBit
  intro d e he
  obtain ⟨hrange, rfl⟩ := (encodeFrame_ok_iff _ _).1 he
  constructor
  · have hremote : DescriptorInRange { d with rtr := true } := hrange
    rw [encodeFrame_of_inRange _ hremote, frameEnvelope, encoderTypeByte_remote]
    rfl
  · exact typeRtr_encoderTypeByte d.ext false d.len

/-! ### The identifier bytes of an envelope (R46, R47) -/

theorem byteAt_toNat (v : BitVec 32) (sh : Nat) : (byteAt v sh).toNat = v.toNat / 2 ^ sh % 256 := by
  have hmask : (0xFF#32).toNat = 2 ^ 8 - 1 := rfl
  rw [byteAt, BitVec.toNat_setWidth, BitVec.toNat_and, BitVec.toNat_ushiftRight, Nat.shiftRight_eq_div_pow, hmask,
    Nat.and_two_pow_sub_one_eq_mod, Nat.mod_mod]

theorem byteAt_eq_ofNat (v : BitVec 32) (sh : Nat) : byteAt v sh = BitVec.ofNat 8 (v.toNat / 2 ^ sh) :=
  BitVec.eq_of_toNat_eq (by rw [byteAt_toNat, BitVec.toNat_ofNat])

/-- An identifier in range is what its bytes read back as, in 2 bytes and in 4. -/
theorem bigEndian_idBytes (ext : Bool) (id : BitVec 32) (h : id.toNat < idLimit ext) :
    bigEndian (idBytes ext id) = id.toNat := by
  cases ext with
  | false =>
    have hid : id.toNat < 2 ^ 11 := h
    simp only [idBytes, bigEndian, Bool.false_eq_true, if_false, List.foldl_cons, List.foldl_nil, byteAt_toNat]
    omega
  | true =>
    have hid : id.toNat < 2 ^ 29 := h
    simp only [idBytes, bigEndian, if_true, List.foldl_cons, List.foldl_nil, byteAt_toNat]
    omega

/-! ### The fields of an envelope read back (R71) -/

theorem memRead_frameEnvelope_id (d : Descriptor) : memRead (frameEnvelope d) 2 (idWidth d.ext) = idBytes d.ext d.id :=
  List.take_left' (idBytes_length d.ext d.id)

/-- The payload lanes of an accepted descriptor stand in its envelope in full. -/
theorem payload_length (d : Descriptor) (hwf : d.WellFormed) (hlen : d.len.toNat ≤ 8) :
    (d.data.take d.len.toNat).length = d.len.toNat := by
  have hlanes : d.data.length = 8 := hwf
  rw [List.length_take, hlanes, Nat.min_eq_left hlen]

theorem memRead_frameEnvelope_payload (d : Descriptor) (hwf : d.WellFormed) (hlen : d.len.toNat ≤ 8) :
    memRead (frameEnvelope d) (2 + idWidth d.ext) d.len.toNat = d.data.take d.len.toNat := by
  have hrest : (frameEnvelope d).drop (2 + idWidth d.ext) = d.data.take d.len.toNat ++ [endByte] := by
    rw [← List.drop_drop]
    exact List.drop_left' (idBytes_length d.ext d.id)
  rw [memRead, hrest, List.take_left' (payload_length d hwf hlen)]

theorem frameEnvelope_concat (d : Descriptor) :
    frameEnvelope d =
      (hdrByte :: encoderTypeByte d.ext d.rtr d.len :: (idBytes d.ext d.id ++ d.data.take d.len.toNat)) ++
        [endByte] := by
  simp [frameEnvelope]

theorem frameEnvelope_last (d : Descriptor) : (frameEnvelope d)[(frameEnvelope d).length - 1]? = some endByte := by
  rw [← List.getLast?_eq_getElem?, frameEnvelope_concat, List.getLast?_concat]

theorem frameEnvelope_length (d : Descriptor) (hwf : d.WellFormed) (h : DescriptorInRange d) :
    (frameEnvelope d).length = envelopeLen d.ext d.len :=
  encodeFrame_ok_length d _ hwf (encodeFrame_of_inRange d h)

/-- Settles O11: the envelope's length, its two ends, its type byte and its identifier bytes, each read back. -/
theorem envelopeStructure : Obligations.EnvelopeStructure := by
  unfold Obligations.EnvelopeStructure
  intro d e hwf he w t
  obtain ⟨hrange, rfl⟩ := (encodeFrame_ok_iff d e).1 he
  obtain ⟨hlen, hid⟩ := (descriptorInRange_iff d).1 hrange
  have ht : t = 192 + 32 * d.ext.toNat + 16 * d.rtr.toNat + d.len.toNat := encoderTypeByte_toNat d.ext d.rtr d.len
  have hext := Bool.toNat_le d.ext
  have hrtr := Bool.toNat_le d.rtr
  have hidentifier : bigEndian (memRead (frameEnvelope d) 2 w) = d.id.toNat := by
    rw [← bigEndian_idBytes d.ext d.id hid, ← memRead_frameEnvelope_id]
    rfl
  refine ⟨frameEnvelope_length d hwf hrange, rfl, frameEnvelope_last d, ?_, ?_, ?_, ?_, hlen, hidentifier⟩ <;> omega

/-! ### The two TX operations (R68, R69) -/

theorem execTxSubmit_of_ok (d : Descriptor) (e : List Byte) (s : State) (hq : s.txQ = []) (he : encodeFrame d = .ok e) :
    execTxSubmit d s = .next { s with txQ := e, statusOut := s.statusOut ++ [.ok] } := by
  have hfree : ¬ s.txBusy = true := by simp [txBusy_iff, hq]
  rw [execTxSubmit, if_neg hfree, he]
  rfl

/-- The envelope over the numbers of the descriptor's fields (R42, R46). -/
theorem frameEnvelope_eq_numbers (d : Descriptor) :
    frameEnvelope d =
      [0xAA#8, BitVec.ofNat 8 (192 + 32 * d.ext.toNat + 16 * d.rtr.toNat + d.len.toNat)] ++
      (if d.ext then
        [BitVec.ofNat 8 (d.id.toNat / 2 ^ 24), BitVec.ofNat 8 (d.id.toNat / 2 ^ 16),
         BitVec.ofNat 8 (d.id.toNat / 2 ^ 8), BitVec.ofNat 8 d.id.toNat]
       else [BitVec.ofNat 8 (d.id.toNat / 2 ^ 8), BitVec.ofNat 8 d.id.toNat]) ++
      d.data.take d.len.toNat ++ [0x55#8] := by
  have htype : encoderTypeByte d.ext d.rtr d.len =
      BitVec.ofNat 8 (192 + 32 * d.ext.toNat + 16 * d.rtr.toNat + d.len.toNat) := by
    rw [← encoderTypeByte_toNat, BitVec.ofNat_toNat, BitVec.setWidth_eq]
  rw [frameEnvelope, idBytes, htype]
  simp only [byteAt_eq_ofNat, hdrByte, endByte, Nat.pow_zero, Nat.div_one, List.append_assoc, List.cons_append,
    List.nil_append]

/-- Settles O4: with `tx_q` empty an accepted descriptor loads its envelope. -/
theorem txSubmitLoadsEnvelope : Obligations.TxSubmitLoadsEnvelope := by
  unfold Obligations.TxSubmitLoadsEnvelope
  intro d s hq hlen hid
  rw [← frameEnvelope_eq_numbers]
  exact execTxSubmit_of_ok d _ s hq (encodeFrame_of_inRange d ⟨hlen, hid⟩)

/-- Settles O12: TX_EMIT is the case of a nonempty `tx_q`. -/
theorem txEmitDeliversFirstByte : Obligations.TxEmitDeliversFirstByte := by
  unfold Obligations.TxEmitDeliversFirstByte
  intro s b q hq
  change execTxEmit s = _
  rw [execTxEmit, hq]
  rfl

end Sys2Proof.Machine
end

section
/-! PROOF of the round trip (spec/40_encoder.md R72): an envelope's bytes, fed one by one, keep the decoder waiting until the
last, and that one gives the Frame of the descriptor. -/

namespace Sys2Proof.Machine

/-! ### Scripts as a relation (R61) -/

/-- Some number of script steps leads from the one script and state to the other. -/
def ScriptReaches (lines : List ScriptLine) (s : State) (lines' : List ScriptLine) (s' : State) : Prop :=
  ∃ k, runScript k lines s = .next (lines', s')

theorem ScriptReaches.refl (lines : List ScriptLine) (s : State) : ScriptReaches lines s lines s := ⟨0, rfl⟩

theorem ScriptReaches.of_step {lines lines' : List ScriptLine} {s s' : State}
    (h : scriptStep lines s = .next (lines', s')) : ScriptReaches lines s lines' s' :=
  ⟨1, by rw [runScript_succ 0 lines lines' s s' h, runScript_zero]⟩

theorem ScriptReaches.trans {l₁ l₂ l₃ : List ScriptLine} {s₁ s₂ s₃ : State} (h : ScriptReaches l₁ s₁ l₂ s₂)
    (h' : ScriptReaches l₂ s₂ l₃ s₃) : ScriptReaches l₁ s₁ l₃ s₃ := by
  obtain ⟨j, hj⟩ := h
  obtain ⟨k, hk⟩ := h'
  exact ⟨j + k, by rw [runScript_add j k l₁ l₂ s₁ s₂ hj, hk]⟩

/-! ### The lines of `feed` (R62, R76, R77) -/

/-- A push line in IDLE appends its byte and starts the decoder. -/
theorem push_reaches (b : Byte) (ls : List ScriptLine) (s : State) (hidle : s.rxMode = .idle) :
    ScriptReaches (.op (.rxByteIn b) :: ls) s ls { s with rxBuf := s.rxBuf ++ [b], rxMode := .scan } := by
  have hready : s.rxReady = true := (rxReady_iff s).2 hidle
  have hexec : execRxPush b s = .next { s with rxBuf := s.rxBuf ++ [b], rxMode := .scan } := by
    rw [execRxPush, if_pos hready]
    rfl
  exact .of_step (scriptStep_performs _ ls [] (.rxByteIn b) s _ rfl hready hexec)

/-- A run line in IDLE is over. -/
theorem run_over_reaches (ls : List ScriptLine) (s : State) (hidle : s.rxMode = .idle) :
    ScriptReaches (.run :: ls) s ls s :=
  .of_step (scriptStep_over .run ls s (by simp [ScriptLine.ask, hidle]))

/-- A run line in SCAN performs RX_STEP and stays, where that is enabled. -/
theorem run_step_reaches (ls : List ScriptLine) (s t : State) (hready : s.rxStepReady = true)
    (hexec : execRxStep s = .next t) : ScriptReaches (.run :: ls) s (.run :: ls) t := by
  have hscan : s.rxMode = .scan := ((rxStepReady_iff s).1 hready).1
  exact .of_step (scriptStep_performs .run ls [.run] .internal s t (by simp [ScriptLine.ask, hscan]) hready hexec)

/-! ### A waiting buffer (R19, R78, R80, R83) -/

theorem waitingBuffer_of_append (front rest : List Byte) (h : WaitingBuffer (front ++ rest)) : WaitingBuffer front := by
  match front, rest, h with
  | [], _, _ => trivial
  | [_], [], h => exact h
  | [_], _ :: _, ⟨hheader, _⟩ => exact hheader
  | _ :: _ :: bytes, rest, ⟨hheader, hshort⟩ =>
    have hshort : (bytes ++ rest).length + 2 < _ := hshort
    rw [List.length_append] at hshort
    exact ⟨hheader, by omega⟩

theorem fromHeader_of_waiting (buf : List Byte) (h : WaitingBuffer buf) : fromHeader buf = buf := by
  match buf, h with
  | [], _ => rfl
  | [_], rfl => rfl
  | _ :: t :: rest, ⟨rfl, _⟩ => exact fromHeader_cons_header (t :: rest)

/-- No record is due from a waiting buffer. -/
theorem attemptEmits_of_waiting (buf : List Byte) (h : WaitingBuffer buf) : attemptEmits buf = false := by
  rw [attemptEmits, fromHeader_of_waiting buf h]
  match buf, h with
  | [], _ => rfl
  | [_], _ => rfl
  | _ :: _ :: _, ⟨_, hshort⟩ => exact decide_eq_false (Nat.not_le.2 hshort)

theorem decideCandidate_of_short (s : State) (ext rtr : Bool) (len : BitVec 4) (hscan : s.rxMode = .scan)
    (hshort : s.rxBuf.length < envelopeLen ext len) :
    s.decideCandidate ext rtr len = { s with rxMode := .idle } := by
  simp only [State.decideCandidate, hscan, if_pos hshort]
  rfl

/-- On a waiting buffer RX_STEP ends the run and keeps every byte. -/
theorem execRxStep_of_waiting (s : State) (hscan : s.rxMode = .scan) (h : WaitingBuffer s.rxBuf) :
    s.rxStepReady = true ∧ execRxStep s = .next { s with rxMode := .idle } := by
  have hready : s.rxStepReady = true := by simp [rxStepReady_iff, hscan, attemptEmits_of_waiting s.rxBuf h]
  refine ⟨hready, ?_⟩
  rw [execRxStep, if_pos hready, fromHeader_of_waiting s.rxBuf h]
  split
  next hnone =>
    rw [← hnone]
    rfl
  next b hone =>
    rw [← hone]
    rfl
  next b t rest hmore =>
    have hshort : s.rxBuf.length < envelopeLen (typeExt t) (typeLen t) := by
      rw [hmore] at h ⊢
      exact h.2
    rw [execEnvelope_eq, ← hmore]
    exact congrArg _ (decideCandidate_of_short s _ _ _ hscan hshort)

/-- A run line on a waiting buffer ends with the buffer as it was and the decoder in IDLE. -/
theorem run_reaches_of_waiting (ls : List ScriptLine) (s : State) (hscan : s.rxMode = .scan)
    (h : WaitingBuffer s.rxBuf) : ScriptReaches (.run :: ls) s ls { s with rxMode := .idle } := by
  obtain ⟨hready, hexec⟩ := execRxStep_of_waiting s hscan h
  exact (run_step_reaches ls s _ hready hexec).trans (run_over_reaches ls _ rfl)

/-- Fed bytes that keep the buffer waiting are appended, and nothing else happens. -/
theorem feed_reaches_of_waiting (bytes : List Byte) (ls : List ScriptLine) (s : State) (hidle : s.rxMode = .idle)
    (h : WaitingBuffer (s.rxBuf ++ bytes)) :
    ScriptReaches (feed bytes ++ ls) s ls { s with rxBuf := s.rxBuf ++ bytes } := by
  induction bytes generalizing s with
  | nil =>
    rw [List.append_nil]
    exact .refl ls s
  | cons b bs ih =>
    rw [List.append_cons] at h ⊢
    have hwaiting := waitingBuffer_of_append (s.rxBuf ++ [b]) bs h
    have hpush := push_reaches b (.run :: (feed bs ++ ls)) s hidle
    have hrun := run_reaches_of_waiting (feed bs ++ ls) { s with rxBuf := s.rxBuf ++ [b], rxMode := .scan } rfl hwaiting
    have hrest := ih { s with rxBuf := s.rxBuf ++ [b], rxMode := .idle } rfl h
    have hall := hpush.trans (hrun.trans hrest)
    rw [← hidle] at hall
    exact hall

/-! ### A whole valid candidate (R84, R85) -/

theorem decideCandidate_of_valid (s : State) (ext rtr : Bool) (len : BitVec 4) (hscan : s.rxMode = .scan)
    (hwhole : envelopeLen ext len ≤ s.rxBuf.length) (hroom : s.rxq.length < Config.rxqDepth)
    (hvalid : candidateValid ext len s.rxBuf = true) :
    s.decideCandidate ext rtr len =
      { s with rxq := s.rxq ++ [frameRecord ext rtr len s.rxBuf], rxBuf := s.rxBuf.drop (envelopeLen ext len) } := by
  have hemit : ¬ s.canEmit = false := by rw [(canEmit_iff s).2 hroom]; decide
  simp only [State.decideCandidate, hscan, if_neg (Nat.not_lt.2 hwhole), if_neg hemit, if_pos hvalid]
  rw [← hscan]
  rfl

/-- With room in the queue RX_STEP gives the Frame of a whole valid candidate at the front of the buffer. -/
theorem execRxStep_of_valid (s : State) (t : Byte) (rest : List Byte) (hscan : s.rxMode = .scan)
    (hbuf : s.rxBuf = hdrByte :: t :: rest) (hwhole : typeByteLen t ≤ s.rxBuf.length)
    (hroom : s.rxq.length < Config.rxqDepth) (hvalid : candidateValid (typeExt t) (typeLen t) s.rxBuf = true) :
    s.rxStepReady = true ∧ execRxStep s = .next
      { s with
        rxq := s.rxq ++ [frameRecord (typeExt t) (typeRtr t) (typeLen t) s.rxBuf],
        rxBuf := s.rxBuf.drop (typeByteLen t) } := by
  have hready : s.rxStepReady = true := (rxStepReady_iff s).2 ⟨hscan, .inl hroom⟩
  refine ⟨hready, ?_⟩
  have hfrom : fromHeader s.rxBuf = hdrByte :: t :: rest := by rw [hbuf, fromHeader_cons_header]
  simp only [execRxStep, if_pos hready, hfrom, execEnvelope_eq]
  rw [← hbuf]
  exact congrArg _ (decideCandidate_of_valid s _ _ _ hscan hwhole hroom hvalid)

/-! ### An envelope as a candidate (R72) -/

/-- The encoder's envelope has the header and the end marker where the decoder looks for them. -/
theorem candidateValid_frameEnvelope (d : Descriptor) (hwf : d.WellFormed) (h : DescriptorInRange d) :
    candidateValid d.ext d.len (frameEnvelope d) = true := by
  have hlast := frameEnvelope_last d
  rw [frameEnvelope_length d hwf h] at hlast
  rw [candidateValid, List.getD_eq_getElem?_getD, hlast]
  rfl

/-- The decoder reads the descriptor's fields back out of its envelope. -/
theorem frameRecord_frameEnvelope (d : Descriptor) (hwf : d.WellFormed) (h : DescriptorInRange d) :
    frameRecord d.ext d.rtr d.len (frameEnvelope d) = descriptorRecord d := by
  obtain ⟨hlen, hid⟩ := (descriptorInRange_iff d).1 h
  rw [frameRecord, memRead_frameEnvelope_id, bigEndian_idBytes d.ext d.id hid,
    memRead_frameEnvelope_payload d hwf hlen, BitVec.ofNat_toNat, BitVec.setWidth_eq]
  rfl

/-- An envelope without its last byte is one byte short of a candidate. -/
theorem waitingBuffer_of_envelope_front (d : Descriptor) (front : List Byte) (last : Byte) (hwf : d.WellFormed)
    (h : DescriptorInRange d) (hsplit : frameEnvelope d = front ++ [last]) : WaitingBuffer front := by
  have hlength := frameEnvelope_length d hwf h
  rw [hsplit, ← typeByteLen_encoderTypeByte d.ext d.rtr d.len, List.length_append] at hlength
  match front, hsplit with
  | [], _ => trivial
  | [_], hsplit => exact (List.cons.inj hsplit).1.symm
  | _ :: _ :: rest, hsplit =>
    obtain ⟨hheader, htail⟩ := List.cons.inj hsplit
    obtain ⟨htype, -⟩ := List.cons.inj htail
    rw [htype] at hlength
    exact ⟨hheader.symm, hlength ▸ Nat.lt_succ_self _⟩

/-- RX_STEP on a buffer that is just an envelope gives its descriptor's Frame and empties the buffer. -/
theorem execRxStep_of_envelope (d : Descriptor) (s : State) (hwf : d.WellFormed) (h : DescriptorInRange d)
    (hscan : s.rxMode = .scan) (hbuf : s.rxBuf = frameEnvelope d) (hroom : s.rxq.length < Config.rxqDepth) :
    s.rxStepReady = true ∧ execRxStep s = .next { s with rxq := s.rxq ++ [descriptorRecord d], rxBuf := [] } := by
  have hlength : s.rxBuf.length = envelopeLen d.ext d.len := by rw [hbuf, frameEnvelope_length d hwf h]
  have hstep := execRxStep_of_valid s (encoderTypeByte d.ext d.rtr d.len) _ hscan hbuf
  simp only [typeByteLen_encoderTypeByte, typeExt_encoderTypeByte, typeRtr_encoderTypeByte, typeLen_encoderTypeByte,
    ← hlength, List.drop_length] at hstep
  rw [hbuf, frameRecord_frameEnvelope d hwf h] at hstep
  exact hstep le_rfl hroom (candidateValid_frameEnvelope d hwf h)

/-- Settles O54: all bytes but the last keep the decoder waiting; at the last one RX_STEP gives the Frame, and the
next finds the buffer empty. -/
theorem encodedFrameDecodesToItself : Obligations.EncodedFrameDecodesToItself := by
  unfold Obligations.EncodedFrameDecodesToItself
  intro d e s hwf he hbuf hidle hroom
  obtain ⟨hrange, rfl⟩ := (encodeFrame_ok_iff d e).1 he
  obtain ⟨front, hsplit⟩ : ∃ front, frameEnvelope d = front ++ [endByte] := ⟨_, frameEnvelope_concat d⟩
  have hfeed : feed (frameEnvelope d) = feed front ++ [.op (.rxByteIn endByte), .run] := by
    rw [hsplit, feed, List.flatMap_append]
    rfl
  have hwaiting := waitingBuffer_of_envelope_front d front endByte hwf hrange hsplit
  have hfront := feed_reaches_of_waiting front [.op (.rxByteIn endByte), .run] s hidle (by rwa [hbuf])
  have hpush := push_reaches endByte [.run] { s with rxBuf := s.rxBuf ++ front } hidle
  obtain ⟨hready, hexec⟩ := execRxStep_of_envelope d
    { s with rxBuf := s.rxBuf ++ front ++ [endByte], rxMode := .scan } hwf hrange rfl (by simp [hbuf, hsplit]) hroom
  have hframe := run_step_reaches [] _ _ hready hexec
  have hempty := run_reaches_of_waiting []
    { s with rxBuf := [], rxMode := .scan, rxq := s.rxq ++ [descriptorRecord d] } rfl trivial
  have hend : { s with rxBuf := [], rxMode := .idle, rxq := s.rxq ++ [descriptorRecord d] } =
      { s with rxq := s.rxq ++ [descriptorRecord d] } := by
    rw [← hbuf, ← hidle]
  rw [hfeed, ← hend]
  exact hfront.trans (hpush.trans (hframe.trans hempty))

end Sys2Proof.Machine
end

section
/-! PROOFS about one decode attempt (spec/41_decoder.md R77 to R88): it is a function of the buffer alone, and the block
(RX_STEP) and the source's decoder (one pass of R74) both make it. -/

namespace Sys2Proof.Machine

/-! ### The buffer from its first header on (R79) -/

/-- Dropping what stands before the first header commutes with appending bytes. -/
theorem fromHeader_fromHeader_append (buf more : List Byte) :
    fromHeader (fromHeader buf ++ more) = fromHeader (buf ++ more) := by
  rcases fromHeader_split buf with ⟨hnone, hfrom⟩ | ⟨front, rest, hfront, rfl, hfrom⟩
  · have hall : ∀ b ∈ buf, (b != hdrByte) = true := fun b hb => by
      rw [bne_iff_ne]
      rintro rfl
      exact hnone hb
    rw [hfrom, fromHeader, fromHeader, List.nil_append, List.dropWhile_append_of_pos hall]
  · rw [hfrom, List.append_assoc, List.cons_append, fromHeader_append _ _ hfront, fromHeader_cons_header]

@[simp] theorem fromHeader_idem (buf : List Byte) : fromHeader (fromHeader buf) = fromHeader buf := by
  simpa using fromHeader_fromHeader_append buf []

@[simp] theorem attemptEmits_fromHeader (buf : List Byte) : attemptEmits (fromHeader buf) = attemptEmits buf := by
  simp only [attemptEmits, fromHeader_idem]

/-! ### A candidate with bytes behind it (R84, R85) -/

theorem memRead_append (buf more : List Byte) (a n : Nat) (h : a + n ≤ buf.length) :
    memRead (buf ++ more) a n = memRead buf a n := by
  rw [memRead, memRead, List.drop_append_of_le_length (by omega),
    List.take_append_of_le_length (by rw [List.length_drop]; omega)]

theorem candidateValid_append (ext : Bool) (len : BitVec 4) (buf more : List Byte)
    (h : envelopeLen ext len ≤ buf.length) : candidateValid ext len (buf ++ more) = candidateValid ext len buf := by
  have hpos : 0 < envelopeLen ext len := by rw [envelopeLen]; omega
  rw [candidateValid, candidateValid, List.getD_append _ _ _ _ (by omega), List.getD_append _ _ _ _ (by omega)]

theorem frameRecord_append (ext rtr : Bool) (len : BitVec 4) (buf more : List Byte)
    (h : envelopeLen ext len ≤ buf.length) : frameRecord ext rtr len (buf ++ more) = frameRecord ext rtr len buf := by
  rw [envelopeLen] at h
  rw [frameRecord, frameRecord, memRead_append _ _ _ _ (by omega), memRead_append _ _ _ _ (by omega)]

/-- A buffer holds at least its two ends and what stands between them. -/
theorem split_length_le (h c : Byte) (body rest : List Byte) : body.length + 2 ≤ (h :: (body ++ c :: rest)).length := by
  rw [List.length_cons, List.length_append, List.length_cons]
  omega

/-- The test of a candidate of `n` bytes looks at the first and the last of them (R84). -/
theorem candidateValid_split (ext : Bool) (len : BitVec 4) (h c : Byte) (body rest : List Byte)
    (hlen : body.length + 2 = envelopeLen ext len) :
    candidateValid ext len (h :: (body ++ c :: rest)) = (c == endByte && h == hdrByte) := by
  have hlast : envelopeLen ext len - 1 = body.length + 1 := by omega
  rw [candidateValid, hlast, List.getD_cons_succ, List.getD_append_right _ _ _ _ le_rfl, Nat.sub_self]
  rfl

/-- The fields of a candidate, by their place (R47, R85). -/
theorem frameRecord_split (ext rtr : Bool) (len : BitVec 4) (h t : Byte) (ids payload rest : List Byte)
    (hids : ids.length = idWidth ext) (hpayload : payload.length = len.toNat) :
    frameRecord ext rtr len (h :: t :: (ids ++ (payload ++ rest))) =
      .frame
        { id := BitVec.ofNat 32 (bigEndian ids), ext := ext, rtr := rtr, len := len,
          data := payload ++ List.replicate (15 - payload.length) 0#8 } := by
  have hid : memRead (h :: t :: (ids ++ (payload ++ rest))) 2 (idWidth ext) = ids := List.take_left' hids
  have hbehind : (h :: t :: (ids ++ (payload ++ rest))).drop (2 + idWidth ext) = payload ++ rest := by
    rw [← List.drop_drop]
    exact List.drop_left' hids
  rw [frameRecord, hid, memRead, hbehind, List.take_left' hpayload, hpayload]

/-! ### One decode attempt -/

/-- What a decode attempt on the candidate `h :: t :: rest` gives: the record emitted and the buffer left, and nothing while
the candidate is incomplete (R83 to R86). -/
def attemptCandidate (h t : Byte) (rest : List Byte) : Option (Record × List Byte) :=
  if rest.length + 2 < typeByteLen t then none
  else if candidateValid (typeExt t) (typeLen t) (h :: t :: rest) then
    some (frameRecord (typeExt t) (typeRtr t) (typeLen t) (h :: t :: rest), (h :: t :: rest).drop (typeByteLen t))
  else some (badEndMarkerRecord, t :: rest)

/-- What a decode attempt on a buffer gives: the record emitted and the buffer left, or nothing where the run ends. Then the
buffer left is the one from the first header on (R78, R80, R83). -/
def attempt (buf : List Byte) : Option (Record × List Byte) :=
  match fromHeader buf with
  | h :: t :: rest => attemptCandidate h t rest
  | _              => none

/-- An attempt does not see the bytes before the first header (R79). -/
@[simp] theorem attempt_fromHeader (buf : List Byte) : attempt (fromHeader buf) = attempt buf := by
  simp only [attempt, fromHeader_idem]

theorem attempt_append_front (front rest : List Byte) (h : hdrByte ∉ front) :
    attempt (front ++ hdrByte :: rest) = attempt (hdrByte :: rest) := by
  rw [← attempt_fromHeader, fromHeader_append _ _ h]

theorem attempt_candidate (t : Byte) (rest : List Byte) :
    attempt (hdrByte :: t :: rest) = attemptCandidate hdrByte t rest := by
  rw [attempt, fromHeader_cons_header]

/-- A valid candidate gives its Frame and is removed (R85). -/
theorem attempt_of_valid (t : Byte) (body rest : List Byte) (hlen : body.length + 3 = typeByteLen t) :
    attempt (hdrByte :: t :: (body ++ endByte :: rest)) =
      some (frameRecord (typeExt t) (typeRtr t) (typeLen t) (hdrByte :: t :: (body ++ endByte :: rest)), rest) := by
  have hwhole : ¬ (body ++ endByte :: rest).length + 2 < typeByteLen t :=
    Nat.not_lt.2 (hlen.symm.trans_le (split_length_le hdrByte endByte (t :: body) rest))
  have hvalid : candidateValid (typeExt t) (typeLen t) (hdrByte :: t :: (body ++ endByte :: rest)) = true :=
    candidateValid_split (typeExt t) (typeLen t) hdrByte endByte (t :: body) rest hlen
  have hdrop : (hdrByte :: t :: (body ++ endByte :: rest)).drop (typeByteLen t) = rest := by
    rw [← hlen, ← List.singleton_append (l := rest), ← List.append_assoc]
    exact List.drop_left' (by simp)
  rw [attempt_candidate, attemptCandidate, if_neg hwhole, if_pos hvalid, hdrop]

/-- A whole candidate with another byte for its end marker loses its header (R86). -/
theorem attempt_of_badEnd (t c : Byte) (body rest : List Byte) (hlen : body.length + 3 = typeByteLen t)
    (hc : c ≠ endByte) :
    attempt (hdrByte :: t :: (body ++ c :: rest)) = some (badEndMarkerRecord, t :: (body ++ c :: rest)) := by
  have hwhole : ¬ (body ++ c :: rest).length + 2 < typeByteLen t :=
    Nat.not_lt.2 (hlen.symm.trans_le (split_length_le hdrByte c (t :: body) rest))
  have hvalid : candidateValid (typeExt t) (typeLen t) (hdrByte :: t :: (body ++ c :: rest)) = (c == endByte && true) :=
    candidateValid_split (typeExt t) (typeLen t) hdrByte c (t :: body) rest hlen
  rw [attempt_candidate, attemptCandidate, if_neg hwhole, hvalid, if_neg (by simpa using hc)]

/-- The bytes of a buffer on which an attempt emits, and what it emits (R84 to R86). -/
theorem attempt_eq_some (buf left : List Byte) (r : Record) (h : attempt buf = some (r, left)) :
    ∃ front t rest, hdrByte ∉ front ∧ buf = front ++ hdrByte :: t :: rest ∧ typeByteLen t ≤ rest.length + 2 ∧
      ((candidateValid (typeExt t) (typeLen t) (hdrByte :: t :: rest) = true ∧
        r = frameRecord (typeExt t) (typeRtr t) (typeLen t) (hdrByte :: t :: rest) ∧
        left = (hdrByte :: t :: rest).drop (typeByteLen t)) ∨
       (candidateValid (typeExt t) (typeLen t) (hdrByte :: t :: rest) = false ∧
        r = badEndMarkerRecord ∧ left = t :: rest)) := by
  rcases fromHeader_split buf with ⟨-, hfrom⟩ | ⟨front, kept, hfront, rfl, hfrom⟩
  · rw [attempt, hfrom] at h
    cases h
  · rw [attempt_append_front _ _ hfront] at h
    cases kept with
    | nil => cases h
    | cons t rest =>
      rw [attempt_candidate, attemptCandidate] at h
      refine ⟨front, t, rest, hfront, rfl, ?_⟩
      split at h
      next => cases h
      next hwhole =>
        refine ⟨Nat.not_lt.1 hwhole, ?_⟩
        split at h
        next hvalid =>
          cases h
          exact .inl ⟨hvalid, rfl, rfl⟩
        next hvalid =>
          cases h
          exact .inr ⟨by simpa using hvalid, rfl, rfl⟩

theorem attemptCandidate_eq_none_iff (h t : Byte) (rest : List Byte) :
    attemptCandidate h t rest = none ↔ rest.length + 2 < typeByteLen t := by
  rw [attemptCandidate]
  split
  next hshort => exact iff_of_true rfl hshort
  next hwhole =>
    refine iff_of_false ?_ hwhole
    split <;> exact nofun

/-- A run of the decoder ends just where what it leaves is one of the three waiting shapes (R19). -/
theorem attempt_eq_none_iff (buf : List Byte) : attempt buf = none ↔ WaitingBuffer (fromHeader buf) := by
  rcases fromHeader_split buf with ⟨-, hfrom⟩ | ⟨front, kept, -, -, hfrom⟩
  · simp [attempt, hfrom, WaitingBuffer]
  · cases kept with
    | nil => simp [attempt, hfrom, WaitingBuffer]
    | cons t rest => simp [attempt, hfrom, WaitingBuffer, attemptCandidate_eq_none_iff]

theorem attempt_of_waiting (buf : List Byte) (h : WaitingBuffer buf) : attempt buf = none := by
  rw [attempt_eq_none_iff, fromHeader_of_waiting buf h]
  exact h

/-- The enable condition's "a record is due" is that the attempt emits (R87). -/
theorem attemptEmits_iff_attempt (buf : List Byte) : attemptEmits buf = true ↔ attempt buf ≠ none := by
  rw [attemptEmits, attempt]
  match fromHeader buf with
  | []             => simp
  | [_]            => simp
  | h :: t :: rest => simp [attemptCandidate_eq_none_iff]

/-- An emitting attempt removes at least one byte (R92). -/
theorem attempt_shortens (buf left : List Byte) (r : Record) (h : attempt buf = some (r, left)) :
    left.length < buf.length := by
  obtain ⟨front, t, rest, -, rfl, -, ⟨-, -, rfl⟩ | ⟨-, -, rfl⟩⟩ := attempt_eq_some buf left r h
  · have hpos : 0 < typeByteLen t := by rw [typeByteLen, envelopeLen]; omega
    simp only [List.length_drop, List.length_append, List.length_cons]
    omega
  · simp only [List.length_append, List.length_cons]
    omega

/-- Bytes behind a whole candidate stay behind what the attempt leaves (R95). -/
theorem attempt_append (buf left more : List Byte) (r : Record) (h : attempt buf = some (r, left)) :
    attempt (buf ++ more) = some (r, left ++ more) := by
  obtain ⟨front, t, rest, hfront, rfl, hwhole, hcase⟩ := attempt_eq_some buf left r h
  have hwhole' : typeByteLen t ≤ (hdrByte :: t :: rest).length := hwhole
  have hlong : ¬ (rest ++ more).length + 2 < typeByteLen t := by
    rw [List.length_append]
    omega
  have hvalid := candidateValid_append (typeExt t) (typeLen t) _ more hwhole'
  have hframe := frameRecord_append (typeExt t) (typeRtr t) (typeLen t) _ more hwhole'
  have hdrop := List.drop_append_of_le_length (l₂ := more) hwhole'
  rw [List.append_assoc, List.cons_append, List.cons_append, attempt_append_front _ _ hfront, attempt_candidate,
    attemptCandidate, if_neg hlong]
  simp only [List.cons_append] at hvalid hframe hdrop
  rcases hcase with ⟨hok, rfl, rfl⟩ | ⟨hbad, rfl, rfl⟩
  · rw [hvalid, if_pos hok, hframe, hdrop]
  · rw [hvalid, hbad]
    rfl

/-- Induction along a run of the decoder: the run ends at a buffer, or an attempt emits and the run goes on with what it
leaves. -/
theorem attempt_induction {motive : List Byte → Prop}
    (stop : ∀ buf, attempt buf = none → motive buf)
    (emit : ∀ buf r left, attempt buf = some (r, left) → motive left → motive buf) (buf : List Byte) : motive buf :=
  match h : attempt buf with
  | none           => stop buf h
  | some (r, left) => emit buf r left h (attempt_induction stop emit left)
termination_by buf.length
decreasing_by exact attempt_shortens buf left r h

/-! ### One attempt as RX_STEP (R77 to R88) -/

/-- An enabled RX_STEP does what it does on the buffer from its first header on (R79). -/
theorem execRxStep_fromHeader (s : State) (h : s.rxStepReady = true) :
    execRxStep { s with rxBuf := fromHeader s.rxBuf } = execRxStep s := by
  have hready : { s with rxBuf := fromHeader s.rxBuf }.rxStepReady = true := by
    rw [rxStepReady_iff] at h ⊢
    rwa [attemptEmits_fromHeader]
  rw [execRxStep, execRxStep, if_pos hready, if_pos h]
  simp only [fromHeader_idem]
  rfl

/-- Where no record is due RX_STEP ends the run, from the first header on (R78, R80, R83). -/
theorem execRxStep_of_stop (s : State) (hscan : s.rxMode = .scan) (h : attempt s.rxBuf = none) :
    s.rxStepReady = true ∧ execRxStep s = .next { s with rxBuf := fromHeader s.rxBuf, rxMode := .idle } := by
  have hready : s.rxStepReady = true := by
    rw [rxStepReady_iff, attemptEmits_iff_attempt]
    exact ⟨hscan, .inr (not_not_intro h)⟩
  refine ⟨hready, ?_⟩
  rw [← execRxStep_fromHeader s hready]
  exact (execRxStep_of_waiting { s with rxBuf := fromHeader s.rxBuf } hscan ((attempt_eq_none_iff _).1 h)).2

theorem decideCandidate_of_invalid (s : State) (ext rtr : Bool) (len : BitVec 4) (hscan : s.rxMode = .scan)
    (hwhole : envelopeLen ext len ≤ s.rxBuf.length) (hroom : s.rxq.length < Config.rxqDepth)
    (hvalid : candidateValid ext len s.rxBuf = false) :
    s.decideCandidate ext rtr len =
      { s with rxq := s.rxq ++ [.framingError .badEndMarker 1 (s.rxBuf.getD 0 0#8)], rxBuf := s.rxBuf.drop 1 } := by
  have hemit : ¬ s.canEmit = false := by rw [(canEmit_iff s).2 hroom]; decide
  simp only [State.decideCandidate, hscan, if_neg (Nat.not_lt.2 hwhole), if_neg hemit, hvalid]
  rw [← hscan]
  rfl

/-- With room in the queue RX_STEP emits the record that is due (R85, R86). -/
theorem execRxStep_of_emit (s : State) (r : Record) (left : List Byte) (hscan : s.rxMode = .scan)
    (hroom : s.rxq.length < Config.rxqDepth) (h : attempt s.rxBuf = some (r, left)) :
    s.rxStepReady = true ∧ execRxStep s = .next { s with rxBuf := left, rxq := s.rxq ++ [r] } := by
  have hready : s.rxStepReady = true := (rxStepReady_iff s).2 ⟨hscan, .inl hroom⟩
  refine ⟨hready, ?_⟩
  obtain ⟨front, t, rest, hfront, hbuf, hwhole, hcase⟩ := attempt_eq_some s.rxBuf left r h
  have hfrom : fromHeader s.rxBuf = hdrByte :: t :: rest := by rw [hbuf, fromHeader_append _ _ hfront]
  rcases hcase with ⟨hvalid, rfl, rfl⟩ | ⟨hvalid, rfl, rfl⟩
  · rw [← execRxStep_fromHeader s hready, hfrom]
    exact (execRxStep_of_valid { s with rxBuf := hdrByte :: t :: rest } t rest hscan rfl hwhole hroom hvalid).2
  · rw [execRxStep, if_pos hready, hfrom]
    simp only [execEnvelope_eq]
    exact congrArg _ (decideCandidate_of_invalid { s with rxBuf := hdrByte :: t :: rest } _ _ _ hscan hwhole hroom hvalid)

/-- A record is due and the queue is full: RX_STEP waits (R87). -/
theorem execRxStep_of_full (s : State) (hfull : Config.rxqDepth ≤ s.rxq.length) (h : attempt s.rxBuf ≠ none) :
    s.rxStepReady = false ∧ execRxStep s = .next s := by
  have hready : ¬ s.rxStepReady = true := by
    rw [rxStepReady_iff, attemptEmits_iff_attempt]
    rintro ⟨-, hroom | hnone⟩
    · exact absurd hfull (Nat.not_le.2 hroom)
    · exact hnone h
  exact ⟨by simpa using hready, by rw [execRxStep, if_neg hready]⟩

theorem execRxStep_of_idle (s : State) (hidle : s.rxMode = .idle) : execRxStep s = .next s := by
  have hready : ¬ s.rxStepReady = true := by
    rw [rxStepReady_iff, hidle]
    exact nofun
  rw [execRxStep, if_neg hready]

theorem rxMode_idle_or_scan (s : State) : s.rxMode = .idle ∨ s.rxMode = .scan := by
  cases s.rxMode
  · exact .inl rfl
  · exact .inr rfl

/-- What RX_STEP can do, over the attempt: wait outside SCAN, end the run, emit, or wait at a full queue. -/
theorem execRxStep_attempt_cases (s t : State) (h : execRxStep s = .next t) :
    (s.rxMode = .idle ∧ t = s) ∨
    (s.rxMode = .scan ∧ attempt s.rxBuf = none ∧ t = { s with rxBuf := fromHeader s.rxBuf, rxMode := .idle }) ∨
    (s.rxMode = .scan ∧ s.rxq.length < Config.rxqDepth ∧ ∃ r left, attempt s.rxBuf = some (r, left) ∧
      t = { s with rxBuf := left, rxq := s.rxq ++ [r] }) ∨
    (s.rxMode = .scan ∧ Config.rxqDepth ≤ s.rxq.length ∧ attempt s.rxBuf ≠ none ∧ t = s) := by
  rcases rxMode_idle_or_scan s with hidle | hscan
  · exact .inl ⟨hidle, next_unique h (execRxStep_of_idle s hidle)⟩
  · right
    cases hattempt : attempt s.rxBuf with
    | none => exact .inl ⟨hscan, rfl, next_unique h (execRxStep_of_stop s hscan hattempt).2⟩
    | some p =>
      right
      rcases Nat.lt_or_ge s.rxq.length Config.rxqDepth with hroom | hfull
      · exact .inl ⟨hscan, hroom, p.1, p.2, rfl, next_unique h (execRxStep_of_emit s p.1 p.2 hscan hroom hattempt).2⟩
      · have hdue : attempt s.rxBuf ≠ none := by rw [hattempt]; exact nofun
        exact .inr ⟨hscan, hfull, nofun, next_unique h (execRxStep_of_full s hfull hdue).2⟩

/-! ### One attempt as a pass of the source's decoder (R74) -/

theorem sourceLoop_of_stop (passes : Nat) (buf : List Byte) (h : attempt buf = none) :
    sourceLoop (passes + 1) buf = ([], fromHeader buf) := by
  rcases fromHeader_split buf with ⟨hnone, hfrom⟩ | ⟨front, kept, hfront, rfl, hfrom⟩
  · rw [sourceLoop_of_no_header _ _ hnone, hfrom]
  · rw [attempt_eq_none_iff, hfrom] at h
    rw [sourceLoop_of_header _ _ _ hfront, hfrom]
    cases kept with
    | nil => rfl
    | cons t rest => simp [h.2]

theorem sourceLoop_of_emit (passes : Nat) (buf left : List Byte) (r : Record) (h : attempt buf = some (r, left)) :
    sourceLoop (passes + 1) buf = (r :: (sourceLoop passes left).1, (sourceLoop passes left).2) := by
  obtain ⟨front, t, rest, hfront, rfl, hwhole, hcase⟩ := attempt_eq_some buf left r h
  have hwhole : ¬ (hdrByte :: t :: rest).length < typeByteLen t := Nat.not_lt.2 hwhole
  have hpair : ¬ (hdrByte :: t :: rest).length < 2 := by simp
  have hvalid : candidateValid (typeExt t) (typeLen t) (hdrByte :: t :: rest) = true ↔
      (hdrByte :: t :: rest).getD (typeByteLen t - 1) 0#8 = endByte ∧ (hdrByte :: t :: rest).getD 0 0#8 = hdrByte := by
    rw [candidateValid, Bool.and_eq_true, beq_iff_eq, beq_iff_eq]
    rfl
  have htype : (hdrByte :: t :: rest).getD 1 0#8 = t := rfl
  rw [sourceLoop_of_header _ _ _ hfront]
  simp only [htype, if_neg hpair, if_neg hwhole, ← hvalid]
  rcases hcase with ⟨hok, rfl, rfl⟩ | ⟨hbad, rfl, rfl⟩
  · rw [if_pos hok]
  · rw [if_neg (by simp [hbad])]

end Sys2Proof.Machine
end

section
/-! PROOFS of the RX operations (spec/41_decoder.md R76 to R89, R101): RX_PUSH, RX_STEP over the bytes of the buffer, RX_POP,
the four envelope kinds, and that no operation stops the block. -/

namespace Sys2Proof.Machine

/-! ### RX_PUSH and RX_POP (R76, R89) -/

/-- Settles O15: in IDLE RX_PUSH is enabled. -/
theorem rxPushAppendsByte : Obligations.RxPushAppendsByte := by
  unfold Obligations.RxPushAppendsByte
  intro b s hidle
  change execRxPush b s = _
  rw [execRxPush, if_pos ((rxReady_iff s).2 hidle)]
  rfl

/-- Settles O23: RX_POP is the case of a nonempty queue. -/
theorem rxPopDeliversOldest : Obligations.RxPopDeliversOldest := by
  unfold Obligations.RxPopDeliversOldest
  intro s r q hq
  change execRxPop s = _
  rw [execRxPop, hq]
  rfl

/-! ### RX_STEP where no record is due (R78, R80, R83) -/

/-- Settles O16: without a header the attempt ends the run, and nothing is left of the buffer. -/
theorem rxStepDiscardsWithoutHeader : Obligations.RxStepDiscardsWithoutHeader := by
  unfold Obligations.RxStepDiscardsWithoutHeader
  intro s hscan hnone
  have hfrom : fromHeader s.rxBuf = [] := (fromHeader_eq_nil_iff s.rxBuf).2 hnone
  have hstop : attempt s.rxBuf = none := by
    rw [attempt_eq_none_iff, hfrom]
    trivial
  have hstep := (execRxStep_of_stop s hscan hstop).2
  rw [hfrom] at hstep
  exact hstep

/-- Behind bytes without a header, a waiting shape ends the run and stays. -/
theorem execRxStep_of_waiting_behind (s : State) (front rest : List Byte) (hscan : s.rxMode = .scan)
    (hfront : hdrByte ∉ front) (hbuf : s.rxBuf = front ++ hdrByte :: rest) (hwaiting : WaitingBuffer (hdrByte :: rest)) :
    execRxStep s = .next { s with rxBuf := hdrByte :: rest, rxMode := .idle } := by
  have hfrom : fromHeader s.rxBuf = hdrByte :: rest := by rw [hbuf, fromHeader_append _ _ hfront]
  have hstop : attempt s.rxBuf = none := by rwa [attempt_eq_none_iff, hfrom]
  have hstep := (execRxStep_of_stop s hscan hstop).2
  rwa [hfrom] at hstep

/-- Settles O18: a lone header is a waiting shape. -/
theorem rxStepLoneHeaderWaits : Obligations.RxStepLoneHeaderWaits := by
  unfold Obligations.RxStepLoneHeaderWaits
  exact fun s front hscan hfront hbuf => execRxStep_of_waiting_behind s front [] hscan hfront hbuf rfl

/-- Settles O19: an incomplete candidate is a waiting shape. -/
theorem rxStepIncompleteWaits : Obligations.RxStepIncompleteWaits := by
  unfold Obligations.RxStepIncompleteWaits
  intro s front t rest hscan hfront hbuf hshort
  rw [← typeByteLen_eq] at hshort
  exact execRxStep_of_waiting_behind s front (t :: rest) hscan hfront hbuf ⟨rfl, hshort⟩

/-! ### RX_STEP where a record is due (R85, R86) -/

/-- Behind bytes without a header, RX_STEP emits what the attempt from the header on gives. -/
theorem execRxStep_of_emit_behind (s : State) (front rest left : List Byte) (r : Record) (hscan : s.rxMode = .scan)
    (hroom : s.rxq.length < Config.rxqDepth) (hfront : hdrByte ∉ front) (hbuf : s.rxBuf = front ++ hdrByte :: rest)
    (hemit : attempt (hdrByte :: rest) = some (r, left)) :
    execRxStep s = .next { s with rxBuf := left, rxq := s.rxq ++ [r] } :=
  (execRxStep_of_emit s r left hscan hroom (by rw [hbuf, attempt_append_front _ _ hfront, hemit])).2

/-- `L` as the number of the type byte's low bits. -/
theorem ofNat_typeLen (t : Byte) : BitVec.ofNat 4 (t.toNat % 16) = typeLen t := by
  rw [← typeLen_toNat, BitVec.ofNat_toNat, BitVec.setWidth_eq]

/-- Settles O20: the candidate's end marker stands at `n - 1`, and its fields where the record reads them. -/
theorem rxStepEmitsFrame : Obligations.RxStepEmitsFrame := by
  unfold Obligations.RxStepEmitsFrame
  intro s front t ids payload rest hscan hroom hfront hids hpayload hbuf
  have hlen : (ids ++ payload).length + 3 = typeByteLen t := by
    rw [List.length_append, hids, hpayload, typeByteLen_eq]
    omega
  rw [← typeLen_toNat] at hpayload
  have hemit := attempt_of_valid t (ids ++ payload) rest hlen
  rw [List.append_assoc, frameRecord_split (typeExt t) (typeRtr t) (typeLen t) hdrByte t ids payload _ hids hpayload]
    at hemit
  rw [ofNat_typeLen]
  exact execRxStep_of_emit_behind s front _ rest _ hscan hroom hfront (by simp [hbuf, hdrByte, endByte]) hemit

/-- Settles O21: the byte at `n - 1` is not the end marker. -/
theorem rxStepRejectsBadEnd : Obligations.RxStepRejectsBadEnd := by
  unfold Obligations.RxStepRejectsBadEnd
  intro s front t body c rest hscan hroom hfront hlen hc hbuf
  rw [← typeByteLen_eq] at hlen
  have hemit := attempt_of_badEnd t c body rest hlen hc
  have hleft : [t] ++ body ++ [c] ++ rest = t :: (body ++ c :: rest) := by simp
  rw [hleft]
  exact execRxStep_of_emit_behind s front _ _ _ hscan hroom hfront (by simp [hbuf, hdrByte]) hemit

/-! ### When RX_STEP emits (R79, R81, R87) -/

/-- A record is due, over the bytes of the buffer. -/
theorem attempt_ne_none_iff (buf : List Byte) :
    attempt buf ≠ none ↔
      ∃ (front : List Byte) (t : Byte) (rest : List Byte), 0xAA#8 ∉ front ∧ buf = front ++ 0xAA#8 :: t :: rest ∧
        3 + (if t.getLsbD 5 then 4 else 2) + t.toNat % 16 ≤ rest.length + 2 := by
  have hdue := attemptEmits_iff_candidate buf
  simp only [typeByteLen_eq] at hdue
  rw [← attemptEmits_iff_attempt, hdue]
  rfl

/-- Settles O22: RX_STEP emits just where the attempt does, and it needs room for that alone. -/
theorem rxStepEmitsExactlyWhenComplete : Obligations.RxStepEmitsExactlyWhenComplete := by
  unfold Obligations.RxStepEmitsExactlyWhenComplete
  intro s hscan due
  have hdue : due ↔ attempt s.rxBuf ≠ none := (attempt_ne_none_iff s.rxBuf).symm
  rw [hdue]
  refine ⟨fun hemits hfull => ?full, fun hemits hroom => ?room, fun hstop => ?stop⟩
  case full => exact (execRxStep_of_full s hfull hemits).2
  case room =>
    obtain ⟨⟨r, left⟩, hemit⟩ := Option.ne_none_iff_exists'.1 hemits
    exact ⟨_, r, (execRxStep_of_emit s r left hscan hroom hemit).2, rfl, hscan, attempt_shortens _ left r hemit⟩
  case stop => exact ⟨_, (execRxStep_of_stop s hscan (not_not.1 hstop)).2, rfl, rfl⟩

/-- RX_STEP is enabled in SCAN where there is room, or where the attempt emits nothing (R60). -/
theorem rxStepReady_of_room_or_stop (s : State) (hscan : s.rxMode = .scan)
    (h : s.rxq.length < Config.rxqDepth ∨ attempt s.rxBuf = none) : s.rxStepReady = true := by
  rw [rxStepReady_iff, attemptEmits_iff_attempt, not_not]
  exact ⟨hscan, h⟩

/-- Settles O17: an enabled RX_STEP sees the buffer from its first header on alone. -/
theorem rxStepDropsPrefix : Obligations.RxStepDropsPrefix := by
  unfold Obligations.RxStepDropsPrefix
  intro s front rest hscan hfront (hbuf : s.rxBuf = front ++ hdrByte :: rest) henabled
  have hready : s.rxStepReady = true := by
    refine rxStepReady_of_room_or_stop s hscan (henabled.imp_right fun hshort => ?_)
    rw [hbuf, attempt_append_front front rest hfront]
    match rest, hshort with
    | [], _ => rfl
    | t :: tail, hshort =>
      rw [attempt_candidate, attemptCandidate_eq_none_iff, typeByteLen_eq]
      exact hshort t tail rfl
  have hfrom : fromHeader s.rxBuf = hdrByte :: rest := by rw [hbuf, fromHeader_append front rest hfront]
  have hstep := execRxStep_fromHeader s hready
  rw [hfrom] at hstep
  exact hstep.symm

/-! ### The four envelope kinds (R55, R81 to R88) -/

/-- Each kind decides the candidate with its flags and its length. -/
theorem exec_envelopeKind (ext rtr : Bool) (mark : BitVec 2) (len : BitVec 4) (s : State) :
    exec (envelopeKind ext rtr mark len) s = .next (s.decideCandidate ext rtr len) := by
  cases ext <;> cases rtr <;> rfl

/-- The four kinds with their flags, as the statements list them. -/
theorem exec_of_mem_kinds {mark : BitVec 2} {len : BitVec 4} {i : Instr} {ext rtr : Bool}
    (h : (i, ext, rtr) ∈ [(.envStdData mark len, false, false), (.envStdRemote mark len, false, true),
                          (.envExtData mark len, true, false), (.envExtRemote mark len, true, true)]) (s : State) :
    exec i s = .next (s.decideCandidate ext rtr len) := by
  have hkind : i = envelopeKind ext rtr mark len := by
    simp only [List.mem_cons, List.not_mem_nil, or_false, Prod.mk.injEq] at h
    rcases h with ⟨rfl, rfl, rfl⟩ | ⟨rfl, rfl, rfl⟩ | ⟨rfl, rfl, rfl⟩ | ⟨rfl, rfl, rfl⟩ <;> rfl
  rw [hkind, exec_envelopeKind]

/-- Settles O26: the decision of an incomplete candidate. -/
theorem envelopeKindsWaitForBytes : Obligations.EnvelopeKindsWaitForBytes := by
  unfold Obligations.EnvelopeKindsWaitForBytes
  intro mark len i ext rtr s hkind hscan hshort
  rw [exec_of_mem_kinds hkind, decideCandidate_of_short s ext rtr len hscan hshort]

/-- Settles O27: the decision of a valid candidate, its fields read by their place. -/
theorem envelopeKindsDecodeFrame : Obligations.EnvelopeKindsDecodeFrame := by
  unfold Obligations.EnvelopeKindsDecodeFrame
  intro mark len i ext rtr s t ids payload rest hkind hscan hroom hids hpayload hbuf
  have hbuf' : s.rxBuf = hdrByte :: t :: (ids ++ (payload ++ endByte :: rest)) := by simp [hbuf, hdrByte, endByte]
  have hbody : s.rxBuf = hdrByte :: ((t :: (ids ++ payload)) ++ endByte :: rest) := by simp [hbuf']
  have hlen : (t :: (ids ++ payload)).length + 2 = envelopeLen ext len := by
    rw [List.length_cons, List.length_append, hids, hpayload, envelopeLen, idWidth]
    omega
  have hwhole : envelopeLen ext len ≤ s.rxBuf.length := by
    rw [hbody, ← hlen]
    exact split_length_le _ _ _ _
  have hvalid : candidateValid ext len s.rxBuf = true := by
    rw [hbody, candidateValid_split ext len _ _ _ _ hlen]
    rfl
  have hdrop : s.rxBuf.drop (envelopeLen ext len) = rest := by
    rw [hbuf]
    exact List.drop_left' (by rw [← hlen]; simp; omega)
  have hframe := frameRecord_split ext rtr len hdrByte t ids payload (endByte :: rest) hids hpayload
  rw [exec_of_mem_kinds hkind, decideCandidate_of_valid s ext rtr len hscan hwhole hroom hvalid, hdrop, hbuf', hframe]
  rfl

/-- Settles O28: the decision of a candidate with a wrong byte at either end. -/
theorem envelopeKindsRejectBadEnd : Obligations.EnvelopeKindsRejectBadEnd := by
  unfold Obligations.EnvelopeKindsRejectBadEnd
  intro mark len i ext rtr s h c body rest hkind hscan hroom hlen hbad hbuf
  have hbuf' : s.rxBuf = h :: (body ++ c :: rest) := by simp [hbuf]
  have hwhole : envelopeLen ext len ≤ s.rxBuf.length := by
    rw [hbuf']
    exact hlen.symm.trans_le (split_length_le _ _ _ _)
  have hvalid : candidateValid ext len s.rxBuf = false := by
    rw [hbuf', candidateValid_split ext len _ _ _ _ hlen, Bool.and_eq_false_iff, beq_eq_false_iff_ne, beq_eq_false_iff_ne]
    exact hbad
  rw [exec_of_mem_kinds hkind, decideCandidate_of_invalid s ext rtr len hscan hwhole hroom hvalid, hbuf']
  simp

/-- Outside SCAN, and where a record is due and the queue is full, nothing happens (R87). -/
theorem decideCandidate_of_waits (s : State) (ext rtr : Bool) (len : BitVec 4)
    (h : s.rxMode = .idle ∨ (envelopeLen ext len ≤ s.rxBuf.length ∧ Config.rxqDepth ≤ s.rxq.length)) :
    s.decideCandidate ext rtr len = s := by
  rcases h with hidle | ⟨hwhole, hfull⟩
  · simp only [State.decideCandidate, hidle]
  · cases hmode : s.rxMode with
    | idle => simp only [State.decideCandidate, hmode]
    | scan =>
      simp only [State.decideCandidate, hmode, if_neg (Nat.not_lt.2 hwhole), if_pos ((canEmit_eq_false_iff s).2 hfull)]

/-- Settles O29: the decision outside SCAN, and where a record is due and the queue is full. -/
theorem envelopeKindsWaitForRoom : Obligations.EnvelopeKindsWaitForRoom := by
  unfold Obligations.EnvelopeKindsWaitForRoom
  intro mark len i ext rtr s hkind hwaits
  rw [exec_of_mem_kinds hkind, decideCandidate_of_waits s ext rtr len hwaits]

/-- Settles O30: an enabled RX_STEP decides the candidate with the fields of its type byte, and so does their kind. -/
theorem rxStepRunsTheEnvelopeKind : Obligations.RxStepRunsTheEnvelopeKind := by
  unfold Obligations.RxStepRunsTheEnvelopeKind
  intro s front t rest hscan hfront (hbuf : s.rxBuf = front ++ hdrByte :: t :: rest) henabled
  have hready : s.rxStepReady = true := by
    refine rxStepReady_of_room_or_stop s hscan (henabled.imp_right fun hshort => ?_)
    rw [hbuf, attempt_append_front front _ hfront]
    rwa [attempt_candidate, attemptCandidate_eq_none_iff, typeByteLen_eq]
  have hfrom : fromHeader s.rxBuf = hdrByte :: t :: rest := by rw [hbuf, fromHeader_append front _ hfront]
  change execRxStep s = _
  rw [execRxStep, if_pos hready, hfrom, decodeTypeByte_eq, exec_envelopeKind]
  exact execEnvelope_eq t _

/-! ### No operation stops the block (R101, R113) -/

theorem execTxSubmit_next (d : Descriptor) (s : State) : ∃ t, execTxSubmit d s = .next t := by
  rw [execTxSubmit]
  split
  next => exact ⟨_, rfl⟩
  next => split <;> exact ⟨_, rfl⟩

theorem execRxStep_next (s : State) : ∃ t, execRxStep s = .next t := by
  rw [execRxStep]
  split
  next =>
    split
    next => exact ⟨_, rfl⟩
    next => exact ⟨_, rfl⟩
    next => exact ⟨_, execEnvelope_eq _ _⟩
  next => exact ⟨_, rfl⟩

/-- Every instruction answers a next state, in every state. -/
theorem exec_next (i : Instr) (s : State) : ∃ t, exec i s = .next t := by
  cases i with
  | envStdData mark len => exact ⟨_, exec_envelopeKind false false mark len s⟩
  | envStdRemote mark len => exact ⟨_, exec_envelopeKind false true mark len s⟩
  | envExtData mark len => exact ⟨_, exec_envelopeKind true false mark len s⟩
  | envExtRemote mark len => exact ⟨_, exec_envelopeKind true true mark len s⟩
  | txSubmit d => exact execTxSubmit_next d s
  | txEmit =>
    change ∃ t, execTxEmit s = .next t
    rw [execTxEmit]
    split <;> exact ⟨_, rfl⟩
  | rxPush b =>
    change ∃ t, execRxPush b s = .next t
    rw [execRxPush]
    split <;> exact ⟨_, rfl⟩
  | rxStep => exact execRxStep_next s
  | rxPop =>
    change ∃ t, execRxPop s = .next t
    rw [execRxPop]
    split <;> exact ⟨_, rfl⟩
  | reset => exact ⟨_, rfl⟩

/-- Settles O44: a step is an instruction too. -/
theorem blockNeverStops : Obligations.BlockNeverStops := by
  unfold Obligations.BlockNeverStops
  exact ⟨exec_next, fun s => exec_next s.fetch s.granted⟩

end Sys2Proof.Machine
end

section
/-! PROOFS about runs of the decoder and about what a step may do to the RX half (spec/41_decoder.md R91 to R93, R100). -/

namespace Sys2Proof.Machine

/-! ### The records a step emits (R91, R107) -/

/-- An attempt emits a Frame or the one FramingError. -/
theorem attempt_record (buf left : List Byte) (r : Record) (h : attempt buf = some (r, left)) :
    (∃ f, r = .frame f) ∨ r = badEndMarkerRecord := by
  obtain ⟨-, -, -, -, -, -, ⟨-, rfl, -⟩ | ⟨-, rfl, -⟩⟩ := attempt_eq_some buf left r h
  · exact .inl ⟨_, rfl⟩
  · exact .inr rfl

/-- An operation of the TX half leaves the RX half, by the frame of R36. -/
theorem exec_tx_rxHalf (i : Instr) (hi : (∃ d, i = .txSubmit d) ∨ i = .txEmit) (s t : State) (h : exec i s = .next t) :
    t.rxBuf = s.rxBuf ∧ t.rxMode = s.rxMode ∧ t.rxq = s.rxq := by
  obtain ⟨⟨hbuf, hmode, hq, -⟩, -⟩ := (halvesDoNotInterfere i s s t t h h).1 hi
  exact ⟨hbuf, hmode, hq⟩

/-- What an operation does to the result queue: nothing, or one end of it changes, or it is cleared. -/
theorem exec_decodeTransaction_rxq (u : Transaction) (s t : State) (h : exec (decodeTransaction u) s = .next t) :
    t.rxq.length ≤ s.rxq.length ∨ ∃ r left, u = .internal ∧ attempt s.rxBuf = some (r, left) ∧ t.rxq = s.rxq ++ [r] := by
  cases u with
  | txFrameIn record => exact .inl (by rw [(exec_tx_rxHalf _ (.inl ⟨_, rfl⟩) s t h).2.2])
  | txByteOut => exact .inl (by rw [(exec_tx_rxHalf _ (.inr rfl) s t h).2.2])
  | rxByteIn b => rcases execRxPush_cases b s t h with ⟨-, rfl⟩ | ⟨-, rfl⟩ <;> exact .inl le_rfl
  | internal =>
    rcases execRxStep_attempt_cases s t h with
      ⟨-, rfl⟩ | ⟨-, -, rfl⟩ | ⟨-, -, r, left, hemit, rfl⟩ | ⟨-, -, -, rfl⟩
    · exact .inl le_rfl
    · exact .inl le_rfl
    · exact .inr ⟨r, left, rfl, hemit, rfl⟩
    · exact .inl le_rfl
  | rxResultOut =>
    rcases execRxPop_cases s t h with ⟨-, rfl⟩ | ⟨r, q, hq, rfl⟩
    · exact .inl le_rfl
    · exact .inl (by rw [hq]; exact Nat.le_succ _)
  | rst =>
    cases h
    exact .inl (Nat.zero_le _)

/-- A step runs the transaction that has its turn, or the decoder's own. -/
theorem step_eq_exec (s : State) :
    ∃ u, (u = .internal ∨ s.turn = some u) ∧ step s = exec (decodeTransaction u) s.granted := by
  cases hturn : s.turn with
  | some u => exact ⟨u, .inr rfl, step_of_turn s u hturn⟩
  | none =>
    rw [(turn_eq_none s hturn).2]
    exact ⟨.internal, .inl rfl, step_of_no_turn s hturn⟩

/-- Settles O49: a longer queue is RX_STEP's, and the one FramingError of an attempt is that of R91. -/
theorem onlyBadEndMarkerIsEmitted : Obligations.OnlyBadEndMarkerIsEmitted := by
  unfold Obligations.OnlyBadEndMarkerIsEmitted
  intro s t reason count skipped hstep hq
  obtain ⟨u, -, hexec⟩ := step_eq_exec s
  rw [hexec] at hstep
  rcases exec_decodeTransaction_rxq u s.granted t hstep with hshort | ⟨r, left, -, hemit, hgrown⟩
  · have hlonger : t.rxq.length = s.rxq.length + 1 := by rw [hq, List.length_append, List.length_singleton]
    have hshort : t.rxq.length ≤ s.rxq.length := hshort
    omega
  · have hr : r = .framingError reason count skipped := by
      rw [hq] at hgrown
      exact (List.singleton_inj.1 (List.append_cancel_left hgrown)).symm
    rcases attempt_record _ left r hemit with ⟨f, hf⟩ | hbad
    · cases hf.symm.trans hr
    · cases hbad.symm.trans hr
      exact ⟨rfl, rfl, rfl⟩

/-! ### Pending bytes (R100) -/

/-- Settles O53: in IDLE just RX_PUSH and RESET touch the buffer and the mode, and nothing adds a record. -/
theorem pendingBytesStay : Obligations.PendingBytesStay := by
  unfold Obligations.PendingBytesStay
  intro s t hidle hpush hrst hstep
  obtain ⟨u, hu, hturn, hexec⟩ := step_runs_transaction s t hrst hstep
  cases u with
  | txFrameIn record =>
    obtain ⟨hbuf, hmode, hq⟩ := exec_tx_rxHalf _ (.inl ⟨_, rfl⟩) s.granted t hexec
    exact ⟨hbuf, hmode.trans hidle, hq ▸ le_rfl⟩
  | txByteOut =>
    obtain ⟨hbuf, hmode, hq⟩ := exec_tx_rxHalf _ (.inr rfl) s.granted t hexec
    exact ⟨hbuf, hmode.trans hidle, hq ▸ le_rfl⟩
  | rxByteIn b => exact absurd (hturn.resolve_left nofun) (hpush b)
  | internal =>
    obtain rfl := next_unique hexec (execRxStep_of_idle s.granted hidle)
    exact ⟨rfl, hidle, le_rfl⟩
  | rxResultOut =>
    rcases execRxPop_cases s.granted t hexec with ⟨-, rfl⟩ | ⟨r, q, hq, rfl⟩
    · exact ⟨rfl, hidle, le_rfl⟩
    · have hq : s.rxq = r :: q := hq
      exact ⟨rfl, hidle, by rw [hq]; exact Nat.le_succ _⟩
  | rst => exact absurd rfl hu

/-! ### The length of a run and of what it emits (R92, R93) -/

theorem runInstrs_cons (i : Instr) (is : List Instr) (s m : State) (h : exec i s = .next m) :
    runInstrs (i :: is) s = runInstrs is m := by
  rw [runInstrs, h, andThen]

/-- A run takes an RX_STEP for each byte that an attempt removes, and one to end it. -/
theorem rxSteps_end_or_wait (s : State) (hscan : s.rxMode = .scan) :
    ∃ k ≤ s.rxBuf.length + 1, ∃ t, runInstrs (List.replicate k .rxStep) s = .next t ∧
      (t.rxMode = .idle ∨ (Config.rxqDepth ≤ t.rxq.length ∧ exec .rxStep t = .next t)) := by
  generalize hbuf : s.rxBuf = buf
  induction buf using attempt_induction generalizing s with
  | stop buf hstop =>
    subst hbuf
    have hexec := (execRxStep_of_stop s hscan hstop).2
    exact ⟨1, Nat.le_add_left 1 _, _, runInstrs_cons .rxStep [] s _ hexec, .inl rfl⟩
  | emit buf r left hemit ih =>
    subst hbuf
    rcases Nat.lt_or_ge s.rxq.length Config.rxqDepth with hroom | hfull
    · have hexec := (execRxStep_of_emit s r left hscan hroom hemit).2
      have hshort := attempt_shortens s.rxBuf left r hemit
      obtain ⟨k, hk, t, hrun, hend⟩ := ih { s with rxBuf := left, rxq := s.rxq ++ [r] } hscan rfl
      refine ⟨k + 1, by omega, t, ?_, hend⟩
      rw [List.replicate_succ, runInstrs_cons .rxStep _ s _ hexec, hrun]
    · have hdue : attempt s.rxBuf ≠ none := by rw [hemit]; exact nofun
      exact ⟨0, Nat.zero_le _, s, rfl, .inr ⟨hfull, (execRxStep_of_full s hfull hdue).2⟩⟩

/-- Settles O50: the bound, by induction along the run. -/
theorem runEndsWithinBufferLengthPlusOne : Obligations.RunEndsWithinBufferLengthPlusOne := by
  unfold Obligations.RunEndsWithinBufferLengthPlusOne
  exact rxSteps_end_or_wait

/-- One RX_STEP pays for a record with a byte of the buffer. -/
theorem execRxStep_emits_within (s t : State) (h : execRxStep s = .next t) :
    ∃ fresh, t.rxq = s.rxq ++ fresh ∧ fresh.length + t.rxBuf.length ≤ s.rxBuf.length := by
  rcases execRxStep_attempt_cases s t h with
    ⟨-, rfl⟩ | ⟨-, -, rfl⟩ | ⟨-, -, r, left, hemit, rfl⟩ | ⟨-, -, -, rfl⟩
  · exact ⟨[], (List.append_nil _).symm, (Nat.zero_add _).le⟩
  · exact ⟨[], (List.append_nil _).symm, (Nat.zero_add _).trans_le (fromHeader_length_le s.rxBuf)⟩
  · have hshort := attempt_shortens s.rxBuf left r hemit
    exact ⟨[r], rfl, (Nat.add_comm _ _).trans_le hshort⟩
  · exact ⟨[], (List.append_nil _).symm, (Nat.zero_add _).le⟩

theorem rxSteps_emit_within (k : Nat) (s t : State) (h : runInstrs (List.replicate k .rxStep) s = .next t) :
    ∃ fresh, t.rxq = s.rxq ++ fresh ∧ fresh.length + t.rxBuf.length ≤ s.rxBuf.length := by
  induction k generalizing s with
  | zero =>
    cases h
    exact ⟨[], (List.append_nil _).symm, (Nat.zero_add _).le⟩
  | succ k ih =>
    obtain ⟨m, hm⟩ := execRxStep_next s
    rw [List.replicate_succ, runInstrs_cons .rxStep _ s m hm] at h
    obtain ⟨first, hq, hfirst⟩ := execRxStep_emits_within s m hm
    obtain ⟨more, hq', hmore⟩ := ih m h
    refine ⟨first ++ more, by rw [hq', hq, List.append_assoc], ?_⟩
    rw [List.length_append]
    omega

/-- Settles O51: with the invariant at most 22 bytes stand in the buffer after the push, and each record costs one. -/
theorem onePushEmitsAtMostTwentyTwo : Obligations.OnePushEmitsAtMostTwentyTwo := by
  unfold Obligations.OnePushEmitsAtMostTwentyTwo
  intro b k s t hinv hidle hrun
  rw [runInstrs_cons _ _ s _ (rxPushAppendsByte b s hidle)] at hrun
  obtain ⟨fresh, hq, hwithin⟩ := rxSteps_emit_within k _ t hrun
  have hshort := waitingBuffer_length_lt s.rxBuf (hinv.rxBuf_waiting hidle)
  simp only [List.length_append, List.length_singleton] at hwithin
  exact ⟨fresh, hq, by omega⟩

end Sys2Proof.Machine
end

section
/-! PROOFS about the source's decoder (spec/41_decoder.md R74, R95): it gives its records attempt by attempt, so where a
stream is cut does not matter. -/

namespace Sys2Proof.Machine

/-! ### A whole run of the source's decoder (R74) -/

/-- The records of a whole run on a buffer and what the run leaves. -/
def decodeAll (buf : List Byte) : List Record × List Byte := sourceLoop (buf.length + 1) buf

theorem sourceFeed_eq_decodeAll (buffer chunk : List Byte) : sourceFeed buffer chunk = decodeAll (buffer ++ chunk) := rfl

/-- The bound on the number of passes is never reached (R92). -/
theorem sourceLoop_eq_decodeAll (buf : List Byte) (passes : Nat) (h : buf.length < passes) :
    sourceLoop passes buf = decodeAll buf := by
  induction buf using attempt_induction generalizing passes with
  | stop buf hstop =>
    obtain ⟨k, rfl⟩ := Nat.exists_eq_add_of_lt h
    rw [decodeAll, sourceLoop_of_stop _ _ hstop, sourceLoop_of_stop _ _ hstop]
  | emit buf r left hemit ih =>
    have hshort := attempt_shortens buf left r hemit
    obtain ⟨k, rfl⟩ := Nat.exists_eq_add_of_lt h
    rw [decodeAll, sourceLoop_of_emit _ _ _ _ hemit, sourceLoop_of_emit _ _ _ _ hemit, ih _ (by omega), ih _ hshort]

theorem decodeAll_of_stop (buf : List Byte) (h : attempt buf = none) : decodeAll buf = ([], fromHeader buf) :=
  sourceLoop_of_stop _ _ h

theorem decodeAll_of_emit (buf left : List Byte) (r : Record) (h : attempt buf = some (r, left)) :
    decodeAll buf = (r :: (decodeAll left).1, (decodeAll left).2) := by
  rw [decodeAll, sourceLoop_of_emit _ _ _ _ h, sourceLoop_eq_decodeAll _ _ (attempt_shortens buf left r h)]

theorem decodeAll_of_waiting (buf : List Byte) (h : WaitingBuffer buf) : decodeAll buf = ([], buf) := by
  rw [decodeAll_of_stop buf (attempt_of_waiting buf h), fromHeader_of_waiting buf h]

@[simp] theorem decodeAll_nil : decodeAll [] = ([], []) := rfl

/-- A run does not see the bytes before the first header (R79). -/
theorem decodeAll_fromHeader (buf : List Byte) : decodeAll (fromHeader buf) = decodeAll buf := by
  cases h : attempt buf with
  | none =>
    rw [decodeAll_of_stop buf h, decodeAll_of_stop (fromHeader buf) (by rw [attempt_fromHeader, h]), fromHeader_idem]
  | some p =>
    rw [decodeAll_of_emit buf _ _ h, decodeAll_of_emit (fromHeader buf) p.2 p.1 (by rw [attempt_fromHeader, h])]

/-! ### What a part of a stream gives -/

/-- Whatever bytes follow `buf`, a run gives the records `rs` first, and then what it gives with `left` for `buf`. -/
def Yields (buf : List Byte) (rs : List Record) (left : List Byte) : Prop :=
  ∀ more, decodeAll (buf ++ more) = (rs ++ (decodeAll (left ++ more)).1, (decodeAll (left ++ more)).2)

theorem Yields.refl (buf : List Byte) : Yields buf [] buf := fun _ => rfl

theorem Yields.trans {a b c : List Byte} {rs rs' : List Record} (h : Yields a rs b) (h' : Yields b rs' c) :
    Yields a (rs ++ rs') c := by
  intro more
  rw [h more, h' more, List.append_assoc]

/-- Bytes that come later do not change what a buffer has given. -/
theorem Yields.append {buf left : List Byte} {rs : List Record} (h : Yields buf rs left) (more : List Byte) :
    Yields (buf ++ more) rs (left ++ more) := by
  intro later
  rw [List.append_assoc, List.append_assoc]
  exact h (more ++ later)

theorem yields_fromHeader (buf : List Byte) : Yields buf [] (fromHeader buf) := by
  intro more
  rw [← decodeAll_fromHeader (fromHeader buf ++ more), fromHeader_fromHeader_append, decodeAll_fromHeader]
  rfl

theorem yields_of_emit (buf left : List Byte) (r : Record) (h : attempt buf = some (r, left)) : Yields buf [r] left :=
  fun more => decodeAll_of_emit _ _ _ (attempt_append buf left more r h)

theorem Yields.decodeAll_eq {buf left : List Byte} {rs : List Record} (h : Yields buf rs left) :
    decodeAll buf = (rs ++ (decodeAll left).1, (decodeAll left).2) := by
  simpa using h []

/-- A run on a buffer gives its records and leaves a buffer at which the decoder waits (R19, R95). -/
theorem decodeAll_yields (buf : List Byte) :
    Yields buf (decodeAll buf).1 (decodeAll buf).2 ∧ WaitingBuffer (decodeAll buf).2 := by
  induction buf using attempt_induction with
  | stop buf hstop =>
    rw [decodeAll_of_stop buf hstop]
    exact ⟨yields_fromHeader buf, (attempt_eq_none_iff buf).1 hstop⟩
  | emit buf r left hemit ih =>
    rw [decodeAll_of_emit buf left r hemit]
    exact ⟨(yields_of_emit buf left r hemit).trans ih.1, ih.2⟩

/-- A stream in two parts: the records of the first, then those of what it leaves with the second behind it. -/
theorem decodeAll_append (buf more : List Byte) :
    decodeAll (buf ++ more) =
      ((decodeAll buf).1 ++ (decodeAll ((decodeAll buf).2 ++ more)).1, (decodeAll ((decodeAll buf).2 ++ more)).2) :=
  (decodeAll_yields buf).1 more

/-! ### Chunks (R95) -/

theorem sourceFeedChunks_of_waiting (buffer : List Byte) (chunks : List (List Byte)) (h : WaitingBuffer buffer) :
    sourceFeedChunks buffer chunks = sourceFeed buffer chunks.flatten := by
  induction chunks generalizing buffer with
  | nil =>
    rw [sourceFeed_eq_decodeAll, List.flatten_nil, List.append_nil, decodeAll_of_waiting buffer h]
    rfl
  | cons chunk chunks ih =>
    have hrest := ih _ (decodeAll_yields (buffer ++ chunk)).2
    rw [sourceFeed_eq_decodeAll] at hrest ⊢
    rw [List.flatten_cons, ← List.append_assoc, decodeAll_append, ← hrest]
    rfl

/-- Settles O56: the empty buffer is one at which the decoder waits, and so is what each chunk leaves. -/
theorem chunkBoundaryIndependence : Obligations.ChunkBoundaryIndependence := by
  unfold Obligations.ChunkBoundaryIndependence
  exact fun chunks => sourceFeedChunks_of_waiting [] chunks trivial

end Sys2Proof.Machine
end

section
/-! PROOFS that the block is the source's decoder (spec/41_decoder.md R75, R94, R96, R99, R133): `feed` as a script, alone
and with the records taken as they appear, and any list of transactions. -/

namespace Sys2Proof.Machine

/-! ### `feed` with the records taken (R75, R99) -/

/-- A line that asks for RX_POP while there is a record takes them all. -/
theorem popping_reaches (l : ScriptLine) (ls : List ScriptLine) (s : State)
    (hask : ∀ u : State, u.rxMode = s.rxMode → u.rxq ≠ [] → l.ask u = some (.rxResultOut, [l])) :
    ScriptReaches (l :: ls) s (l :: ls) { s with rxq := [], resultsOut := s.resultsOut ++ s.rxq } := by
  generalize hq : s.rxq = q
  induction q generalizing s with
  | nil =>
    rw [List.append_nil, ← hq]
    exact .refl _ s
  | cons r q ih =>
    have hne : s.rxq ≠ [] := by rw [hq]; exact nofun
    have hpop : execRxPop s = .next { s with rxq := q, resultsOut := s.resultsOut ++ [r] } := by
      rw [execRxPop, hq]
      rfl
    have hstep := scriptStep_performs l ls [l] .rxResultOut s _ (hask s rfl hne) ((resValid_iff s).2 hne) hpop
    have hrest := ih { s with rxq := q, resultsOut := s.resultsOut ++ [r] } hask rfl
    rw [List.append_assoc] at hrest
    exact (ScriptReaches.of_step hstep).trans hrest

/-- A drain line takes every record and is over. -/
theorem drain_reaches (ls : List ScriptLine) (s : State) :
    ScriptReaches (.drain :: ls) s ls { s with rxq := [], resultsOut := s.resultsOut ++ s.rxq } := by
  have hask (u : State) (hq : u.rxq ≠ []) : ScriptLine.drain.ask u = some (.rxResultOut, [.drain]) := by
    obtain ⟨r, q, hq⟩ := List.exists_cons_of_ne_nil hq
    rw [ScriptLine.ask, hq]
  exact (popping_reaches .drain ls s fun u _ => hask u).trans (.of_step (scriptStep_over .drain ls _ rfl))

theorem runTaking_step_reaches (ls : List ScriptLine) (s t : State) (hq : s.rxq = []) (hready : s.rxStepReady = true)
    (hexec : execRxStep s = .next t) : ScriptReaches (.runTaking :: ls) s (.runTaking :: ls) t := by
  have hscan : s.rxMode = .scan := ((rxStepReady_iff s).1 hready).1
  have hask : ScriptLine.runTaking.ask s = some (.internal, [.runTaking]) := by rw [ScriptLine.ask, hscan, hq]
  exact .of_step (scriptStep_performs .runTaking ls [.runTaking] .internal s t hask hready hexec)

/-- In SCAN the line takes every record before it makes an attempt. -/
theorem runTaking_pops_reaches (ls : List ScriptLine) (s : State) (hscan : s.rxMode = .scan) :
    ScriptReaches (.runTaking :: ls) s (.runTaking :: ls) { s with rxq := [], resultsOut := s.resultsOut ++ s.rxq } := by
  refine popping_reaches .runTaking ls s fun u hmode hq => ?_
  obtain ⟨r, q, hq⟩ := List.exists_cons_of_ne_nil hq
  rw [ScriptLine.ask, hmode, hscan, hq]

/-- A run in which the records are taken as they appear gives what the source's decoder gives on the buffer, at every depth
of the queue: each attempt is made at an empty queue. -/
theorem runTaking_reaches (ls : List ScriptLine) (s : State) (hscan : s.rxMode = .scan) :
    ScriptReaches (.runTaking :: ls) s ls
      { s with
        rxBuf := (decodeAll s.rxBuf).2, rxMode := .idle, rxq := [],
        resultsOut := s.resultsOut ++ s.rxq ++ (decodeAll s.rxBuf).1 } := by
  generalize hbuf : s.rxBuf = buf
  induction buf using attempt_induction generalizing s with
  | stop buf hstop =>
    obtain ⟨hready, hexec⟩ :=
      execRxStep_of_stop { s with rxq := [], resultsOut := s.resultsOut ++ s.rxq } hscan (by rw [hbuf, hstop])
    have hover : ScriptLine.runTaking.ask
        { s with
          rxBuf := fromHeader s.rxBuf, rxMode := .idle, rxq := [], resultsOut := s.resultsOut ++ s.rxq } = none := rfl
    rw [decodeAll_of_stop buf hstop, List.append_nil, ← hbuf]
    exact (runTaking_pops_reaches ls s hscan).trans
      ((runTaking_step_reaches ls _ _ rfl hready hexec).trans (.of_step (scriptStep_over .runTaking ls _ hover)))
  | emit buf r left hemit ih =>
    obtain ⟨hready, hexec⟩ := execRxStep_of_emit { s with rxq := [], resultsOut := s.resultsOut ++ s.rxq } r left hscan
      rxqDepth_pos (by rw [hbuf, hemit])
    have hrest := ih { s with rxBuf := left, rxq := [r], resultsOut := s.resultsOut ++ s.rxq } hscan rfl
    rw [decodeAll_of_emit buf left r hemit]
    rw [List.append_assoc] at hrest
    exact (runTaking_pops_reaches ls s hscan).trans ((runTaking_step_reaches ls _ _ rfl hready hexec).trans hrest)

theorem feedTaking_reaches (bytes : List Byte) (s : State) (hwaiting : WaitingBuffer s.rxBuf) (hidle : s.rxMode = .idle) :
    ScriptReaches (feedTaking bytes) s []
      { s with
        rxBuf := (decodeAll (s.rxBuf ++ bytes)).2, rxq := [],
        resultsOut := s.resultsOut ++ s.rxq ++ (decodeAll (s.rxBuf ++ bytes)).1 } := by
  induction bytes generalizing s with
  | nil =>
    rw [List.append_nil, decodeAll_of_waiting s.rxBuf hwaiting, List.append_nil]
    exact drain_reaches [] s
  | cons b bs ih =>
    have hpush := push_reaches b (.runTaking :: feedTaking bs) s hidle
    have hrun := runTaking_reaches (feedTaking bs) { s with rxBuf := s.rxBuf ++ [b], rxMode := .scan } rfl
    have hrest := ih
      { s with
        rxBuf := (decodeAll (s.rxBuf ++ [b])).2, rxMode := .idle, rxq := [],
        resultsOut := s.resultsOut ++ s.rxq ++ (decodeAll (s.rxBuf ++ [b])).1 } (decodeAll_yields _).2 rfl
    have hall := hpush.trans (hrun.trans hrest)
    rw [List.append_cons, decodeAll_append]
    simpa [hidle] using hall

/-- Settles O57: byte by byte, each byte's run is the source's on the buffer so far. -/
theorem feedEqualsSourceFeed : Obligations.FeedEqualsSourceFeed := by
  unfold Obligations.FeedEqualsSourceFeed
  exact fun bytes s hwaiting hidle => feedTaking_reaches bytes s hwaiting hidle

/-! ### Recovery after a corrupted end marker (R133) -/

/-- The bytes of an envelope between its type byte and its end marker. -/
def envelopeBody (d : Descriptor) : List Byte := idBytes d.ext d.id ++ d.data.take d.len.toNat

theorem frameEnvelope_eq_body (d : Descriptor) :
    frameEnvelope d = hdrByte :: encoderTypeByte d.ext d.rtr d.len :: (envelopeBody d ++ [endByte]) := by
  rw [frameEnvelope, envelopeBody, List.append_assoc]

theorem envelopeBody_length (d : Descriptor) (hwf : d.WellFormed) (h : DescriptorInRange d) :
    (envelopeBody d).length + 3 = typeByteLen (encoderTypeByte d.ext d.rtr d.len) := by
  rw [typeByteLen_encoderTypeByte, ← frameEnvelope_length d hwf h, frameEnvelope_eq_body]
  simp

/-- An attempt on an envelope gives its descriptor's Frame and leaves nothing (R72). -/
theorem attempt_frameEnvelope (d : Descriptor) (hwf : d.WellFormed) (h : DescriptorInRange d) :
    attempt (frameEnvelope d) = some (descriptorRecord d, []) := by
  rw [frameEnvelope_eq_body, attempt_of_valid _ _ _ (envelopeBody_length d hwf h), ← frameEnvelope_eq_body,
    typeExt_encoderTypeByte, typeRtr_encoderTypeByte, typeLen_encoderTypeByte, frameRecord_frameEnvelope d hwf h]

/-- The envelope of `a` with the end marker `c` and then the envelope of `b`, as one buffer: the attempt on the first loses
its header, none of its other bytes is one, and so the next attempt is on the second. -/
theorem decodeAll_corrupted (a b : Descriptor) (c : Byte) (ha : a.WellFormed) (hb : b.WellFormed)
    (hra : DescriptorInRange a) (hrb : DescriptorInRange b) (hc : c ≠ endByte)
    (hnone : hdrByte ∉ encoderTypeByte a.ext a.rtr a.len :: (envelopeBody a ++ [c])) :
    decodeAll ((frameEnvelope a).dropLast ++ [c] ++ frameEnvelope b) =
      ([badEndMarkerRecord, descriptorRecord b], []) := by
  have hbuf : (frameEnvelope a).dropLast ++ [c] ++ frameEnvelope b =
      hdrByte :: encoderTypeByte a.ext a.rtr a.len :: (envelopeBody a ++ c :: frameEnvelope b) := by
    rw [frameEnvelope_eq_body a, ← List.cons_append, ← List.cons_append, List.dropLast_concat]
    simp
  have hsecond : attempt (encoderTypeByte a.ext a.rtr a.len :: (envelopeBody a ++ c :: frameEnvelope b)) =
      some (descriptorRecord b, []) := by
    rw [← List.singleton_append (l := frameEnvelope b), ← List.append_assoc, ← List.cons_append,
      ← attempt_frameEnvelope b hb hrb]
    exact attempt_append_front _ _ hnone
  rw [hbuf, decodeAll_of_emit _ _ _ (attempt_of_badEnd _ c _ _ (envelopeBody_length a ha hra) hc),
    decodeAll_of_emit _ _ _ hsecond, decodeAll_nil]

/-- Settles O55: the script that takes the records gives those of the stream, and leaves the decoder as it was. -/
theorem corruptedEndMarkerRecovers : Obligations.CorruptedEndMarkerRecovers := by
  unfold Obligations.CorruptedEndMarkerRecovers
  intro a b ea eb c s ha hb hea heb hc hnone hbuf hidle hq
  obtain ⟨hra, rfl⟩ := (encodeFrame_ok_iff a ea).1 hea
  obtain ⟨hrb, rfl⟩ := (encodeFrame_ok_iff b eb).1 heb
  rw [frameEnvelope_eq_body a, ← List.cons_append, ← List.cons_append, List.dropLast_concat] at hnone
  have hrecords := decodeAll_corrupted a b c ha hb hra hrb hc hnone
  have hfeed := feedTaking_reaches ((frameEnvelope a).dropLast ++ [c] ++ frameEnvelope b) s (by rw [hbuf]; trivial) hidle
  rw [hbuf, List.nil_append, hrecords, hq, List.append_nil] at hfeed
  have hsame (out : List Record) :
      { s with rxBuf := [], rxq := [], resultsOut := out } = { s with resultsOut := out } := by
    rw [← hbuf, ← hq]
  rw [hsame] at hfeed
  exact hfeed

/-! ### A stream without a header (R96) -/

theorem feed_reaches_of_no_header (bytes : List Byte) (s : State) (hbuf : s.rxBuf = []) (hidle : s.rxMode = .idle)
    (h : hdrByte ∉ bytes) : ScriptReaches (feed bytes) s [] s := by
  induction bytes with
  | nil => exact .refl [] s
  | cons b bs ih =>
    obtain ⟨hb, hbs⟩ := not_or.1 (mt List.mem_cons.2 h)
    have hfrom : fromHeader (s.rxBuf ++ [b]) = [] := by
      rw [hbuf, fromHeader_eq_nil_iff]
      simpa using hb
    have hstop : attempt (s.rxBuf ++ [b]) = none := by
      rw [attempt_eq_none_iff, hfrom]
      trivial
    have hpush := push_reaches b (.run :: feed bs) s hidle
    obtain ⟨hready, hexec⟩ := execRxStep_of_stop { s with rxBuf := s.rxBuf ++ [b], rxMode := .scan } rfl hstop
    have hrun := (run_step_reaches (feed bs) _ _ hready hexec).trans (run_over_reaches (feed bs) _ rfl)
    have hsame : { s with rxBuf := [], rxMode := .idle } = s := by rw [← hbuf, ← hidle]
    simp only [hfrom, hsame] at hrun
    exact hpush.trans (hrun.trans (ih hbs))

/-- Settles O52: each byte is discarded before the next is pushed. -/
theorem noHeaderStreamLeavesNoTrace : Obligations.NoHeaderStreamLeavesNoTrace := by
  unfold Obligations.NoHeaderStreamLeavesNoTrace
  exact fun bytes s hbuf hidle h => feed_reaches_of_no_header bytes s hbuf hidle h

/-! ### `feed` alone: it ends, or waits at a full queue (R61, R99, R126) -/

/-- The state in which a script has put out the records `rs`, with this mode and buffer. -/
def State.putOut (s : State) (mode : RxMode) (rs : List Record) (buf : List Byte) : State :=
  { s with rxBuf := buf, rxMode := mode, rxq := s.rxq ++ rs }

/-- The script `lines` comes to `lines'` after it has pushed `bytes`, and has put out `rs` and left `buf` of them. -/
structure Feeds (lines : List ScriptLine) (s : State) (lines' : List ScriptLine) (bytes : List Byte) (mode : RxMode)
    (rs : List Record) (buf : List Byte) : Prop where
  reaches : ScriptReaches lines s lines' (s.putOut mode rs buf)
  yields  : Yields (s.rxBuf ++ bytes) rs buf

theorem Feeds.trans {l₁ l₂ l₃ : List ScriptLine} {s : State} {bytes bytes' : List Byte} {mode mode' : RxMode}
    {rs rs' : List Record} {buf buf' : List Byte} (h : Feeds l₁ s l₂ bytes mode rs buf)
    (h' : Feeds l₂ (s.putOut mode rs buf) l₃ bytes' mode' rs' buf') :
    Feeds l₁ s l₃ (bytes ++ bytes') mode' (rs ++ rs') buf' where
  reaches := by
    have hstate : (s.putOut mode rs buf).putOut mode' rs' buf' = s.putOut mode' (rs ++ rs') buf' := by
      rw [State.putOut, State.putOut, State.putOut, List.append_assoc]
    exact hstate ▸ h.reaches.trans h'.reaches
  yields := by
    rw [← List.append_assoc]
    exact (h.yields.append bytes').trans h'.yields

/-- The script has come to `lines'` in IDLE, with the source's buffer and no more records than the queue takes. -/
def EndsIdle (lines : List ScriptLine) (s : State) (lines' : List ScriptLine) (bytes : List Byte) : Prop :=
  ∃ rs buf, Feeds lines s lines' bytes .idle rs buf ∧ WaitingBuffer buf ∧ s.rxq.length + rs.length ≤ Config.rxqDepth

/-- The script has come to `lines'` in SCAN, a record is due and the queue is full. -/
def WaitsFull (lines : List ScriptLine) (s : State) (lines' : List ScriptLine) (bytes : List Byte) : Prop :=
  ∃ rs buf, Feeds lines s lines' bytes .scan rs buf ∧ attempt buf ≠ none ∧ s.rxq.length + rs.length = Config.rxqDepth

theorem Feeds.endsIdle {l₁ l₂ l₃ : List ScriptLine} {s : State} {bytes bytes' : List Byte} {mode : RxMode}
    {rs : List Record} {buf : List Byte} (h : Feeds l₁ s l₂ bytes mode rs buf)
    (h' : EndsIdle l₂ (s.putOut mode rs buf) l₃ bytes') : EndsIdle l₁ s l₃ (bytes ++ bytes') := by
  obtain ⟨rs', buf', hfeeds, hwaiting, hroom⟩ := h'
  refine ⟨rs ++ rs', buf', h.trans hfeeds, hwaiting, ?_⟩
  rw [State.putOut, List.length_append] at hroom
  rw [List.length_append]
  omega

theorem Feeds.waitsFull {l₁ l₂ l₃ : List ScriptLine} {s : State} {bytes bytes' : List Byte} {mode : RxMode}
    {rs : List Record} {buf : List Byte} (h : Feeds l₁ s l₂ bytes mode rs buf)
    (h' : WaitsFull l₂ (s.putOut mode rs buf) l₃ bytes') : WaitsFull l₁ s l₃ (bytes ++ bytes') := by
  obtain ⟨rs', buf', hfeeds, hdue, hfull⟩ := h'
  refine ⟨rs ++ rs', buf', h.trans hfeeds, hdue, ?_⟩
  rw [State.putOut, List.length_append] at hfull
  rw [List.length_append]
  omega

/-- A run line in SCAN ends in IDLE, or waits at a full queue with a record due. -/
theorem run_ends_or_waits (ls : List ScriptLine) (s : State) (hscan : s.rxMode = .scan)
    (hdepth : s.rxq.length ≤ Config.rxqDepth) :
    EndsIdle (.run :: ls) s ls [] ∨ WaitsFull (.run :: ls) s (.run :: ls) [] := by
  generalize hbuf : s.rxBuf = buf
  induction buf using attempt_induction generalizing s with
  | stop buf hstop =>
    subst hbuf
    obtain ⟨hready, hexec⟩ := execRxStep_of_stop s hscan hstop
    refine .inl ⟨[], fromHeader s.rxBuf, ⟨?_, ?_⟩, (attempt_eq_none_iff _).1 hstop, hdepth⟩
    · rw [State.putOut, List.append_nil]
      exact (run_step_reaches ls s _ hready hexec).trans (run_over_reaches ls _ rfl)
    · rw [List.append_nil]
      exact yields_fromHeader s.rxBuf
  | emit buf r left hemit ih =>
    subst hbuf
    rcases Nat.lt_or_eq_of_le hdepth with hroom | hfull
    · obtain ⟨hready, hexec⟩ := execRxStep_of_emit s r left hscan hroom hemit
      have hfirst : Feeds (.run :: ls) s (.run :: ls) [] .scan [r] left := by
        refine ⟨?_, ?_⟩
        · rw [State.putOut, ← hscan]
          exact run_step_reaches ls s _ hready hexec
        · rw [List.append_nil]
          exact yields_of_emit s.rxBuf left r hemit
      have hlength : (s.putOut .scan [r] left).rxq.length ≤ Config.rxqDepth := by
        rw [State.putOut, List.length_append]
        exact hroom
      exact (ih (s.putOut .scan [r] left) rfl hlength rfl).imp hfirst.endsIdle hfirst.waitsFull
    · refine .inr ⟨[], s.rxBuf, ⟨?_, ?_⟩, by rw [hemit]; exact nofun, hfull⟩
      · rw [State.putOut, List.append_nil, ← hscan]
        exact .refl _ s
      · rw [List.append_nil]
        exact .refl s.rxBuf

/-- `feed` ends in IDLE with every byte pushed, or one of its run lines waits at a full queue. -/
theorem feed_ends_or_waits (bytes : List Byte) (s : State) (hwaiting : WaitingBuffer s.rxBuf) (hidle : s.rxMode = .idle)
    (hdepth : s.rxq.length ≤ Config.rxqDepth) :
    EndsIdle (feed bytes) s [] bytes ∨
    ∃ pushed left, bytes = pushed ++ left ∧ WaitsFull (feed bytes) s (.run :: feed left) pushed := by
  induction bytes generalizing s with
  | nil =>
    refine .inl ⟨[], s.rxBuf, ⟨?_, ?_⟩, hwaiting, hdepth⟩
    · rw [State.putOut, List.append_nil, ← hidle]
      exact .refl [] s
    · rw [List.append_nil]
      exact .refl s.rxBuf
  | cons b bs ih =>
    have hpush : Feeds (feed (b :: bs)) s (.run :: feed bs) [b] .scan [] (s.rxBuf ++ [b]) := by
      refine ⟨?_, .refl _⟩
      rw [State.putOut, List.append_nil]
      exact push_reaches b _ s hidle
    have hlength : (s.putOut .scan [] (s.rxBuf ++ [b])).rxq.length ≤ Config.rxqDepth := by
      rwa [State.putOut, List.append_nil]
    rcases run_ends_or_waits (feed bs) _ rfl hlength with hends | hwaits
    · obtain ⟨rs, buf, hfeeds, hleft, hroom⟩ := hpush.endsIdle hends
      have hrest := ih (s.putOut .idle rs buf) hleft rfl (by rwa [State.putOut, List.length_append])
      rcases hrest with hends' | ⟨pushed, left, rfl, hwaits'⟩
      · exact .inl (hfeeds.endsIdle hends')
      · exact .inr ⟨b :: pushed, left, rfl, hfeeds.waitsFull hwaits'⟩
    · exact .inr ⟨[b], bs, rfl, hpush.waitsFull hwaits⟩

/-- A run line that waits at a full queue does so for ever. -/
theorem run_waits_for_ever (ls : List ScriptLine) (s : State) (hscan : s.rxMode = .scan)
    (hfull : Config.rxqDepth ≤ s.rxq.length) (hdue : attempt s.rxBuf ≠ none) (more : Nat) :
    runScript more (.run :: ls) s = .next (.run :: ls, s) := by
  have hask : ScriptLine.run.ask s = some (.internal, [.run]) := by rw [ScriptLine.ask, hscan]
  exact runScript_stays more _ s (scriptStep_waits .run ls [.run] .internal s hask (execRxStep_of_full s hfull hdue).1)

/-- Where a record is due, a run gives at least one record, whatever bytes follow. -/
theorem decodeAll_records_pos (buf more : List Byte) (h : attempt buf ≠ none) :
    0 < (decodeAll (buf ++ more)).1.length := by
  obtain ⟨⟨r, left⟩, hemit⟩ := Option.ne_none_iff_exists'.1 h
  rw [decodeAll_of_emit _ _ r (attempt_append buf left more r hemit)]
  exact Nat.succ_pos _

/-- Settles O60: which of the two ends `feed` comes to, is told by the number of the source's records. -/
theorem feedEndsOrWaitsWithoutLoss : Obligations.FeedEndsOrWaitsWithoutLoss := by
  unfold Obligations.FeedEndsOrWaitsWithoutLoss
  intro bytes s hwaiting hidle hdepth given
  have hgiven : given = decodeAll (s.rxBuf ++ bytes) := sourceFeed_eq_decodeAll _ _
  rcases feed_ends_or_waits bytes s hwaiting hidle hdepth with
    ⟨rs, buf, hfeeds, hleft, hroom⟩ | ⟨pushed, left, rfl, rs, buf, hfeeds, hdue, hfull⟩
  · have hall := hfeeds.yields.decodeAll_eq
    rw [decodeAll_of_waiting buf hleft, List.append_nil, ← hgiven] at hall
    rw [hall]
    have hreaches := hfeeds.reaches
    rw [State.putOut, ← hidle] at hreaches
    exact ⟨fun _ => hreaches, fun hmore => absurd hroom (Nat.not_le.2 hmore)⟩
  · have hall := hfeeds.yields left
    rw [List.append_assoc, ← hgiven] at hall
    have hpos := decodeAll_records_pos buf left hdue
    refine ⟨fun hroom => ?_, fun _ => ?_⟩
    · rw [hall, List.length_append] at hroom
      omega
    · obtain ⟨k, hk⟩ := hfeeds.reaches
      have hlength : (s.rxq ++ rs).length = Config.rxqDepth := by rw [List.length_append, hfull]
      exact ⟨k, pushed, left, buf, rs, rfl, hk,
        run_waits_for_ever (feed left) (s.putOut .scan rs buf) rfl hlength.ge hdue, hlength, hall⟩

/-! ### Any list of transactions (R94) -/

/-- The bytes that one transaction pushes. -/
def pushedBy (u : Transaction) (s : State) : List Byte :=
  match u with
  | .rxByteIn b => if s.rxReady then [b] else []
  | _           => []

theorem pushedBytes_cons (u : Transaction) (us : List Transaction) (s m : State)
    (h : exec (decodeTransaction u) s = .next m) : pushedBytes (u :: us) s = pushedBy u s ++ pushedBytes us m := by
  cases u <;> simp only [pushedBytes, h] <;> rfl

theorem runTransactions_cons (u : Transaction) (us : List Transaction) (s m : State)
    (h : exec (decodeTransaction u) s = .next m) : runTransactions (u :: us) s = runTransactions us m := by
  simp only [runTransactions, List.map_cons, runInstrs, h, andThen]

/-- From `s` to `t` the bytes `bytes` are pushed, and the records put out meanwhile are those that they and the buffer
give. -/
def Decodes (s t : State) (bytes : List Byte) : Prop :=
  ∃ fresh, t.recordStream = s.recordStream ++ fresh ∧ Yields (s.rxBuf ++ bytes) fresh t.rxBuf

theorem Decodes.trans {s m t : State} {bytes bytes' : List Byte} (h : Decodes s m bytes) (h' : Decodes m t bytes') :
    Decodes s t (bytes ++ bytes') := by
  obtain ⟨fresh, hstream, hyields⟩ := h
  obtain ⟨fresh', hstream', hyields'⟩ := h'
  refine ⟨fresh ++ fresh', by rw [hstream', hstream, List.append_assoc], ?_⟩
  rw [← List.append_assoc]
  exact (hyields.append bytes').trans hyields'

/-- Nothing is put out, and the buffer grows by the bytes pushed. -/
theorem decodes_of_same (s t : State) (bytes : List Byte) (hstream : t.recordStream = s.recordStream)
    (hbuf : t.rxBuf = s.rxBuf ++ bytes) : Decodes s t bytes :=
  ⟨[], by rw [hstream, List.append_nil], hbuf ▸ .refl _⟩

theorem execRxPush_decodes (b : Byte) (s t : State) (h : execRxPush b s = .next t) :
    Decodes s t (pushedBy (.rxByteIn b) s) := by
  refine decodes_of_same s t _ (execRxPush_recordStream b s t h) ?_
  rcases execRxPush_cases b s t h with ⟨hscan, rfl⟩ | ⟨hidle, rfl⟩
  · simp [pushedBy, State.rxReady, hscan]
  · simp [pushedBy, State.rxReady, hidle]

theorem execRxStep_decodes (s t : State) (h : execRxStep s = .next t) : Decodes s t [] := by
  rcases execRxStep_attempt_cases s t h with
    ⟨-, rfl⟩ | ⟨-, -, rfl⟩ | ⟨-, -, r, left, hemit, rfl⟩ | ⟨-, -, -, rfl⟩
  · exact decodes_of_same _ _ [] rfl (List.append_nil _).symm
  · exact ⟨[], (List.append_nil _).symm, by simpa using yields_fromHeader s.rxBuf⟩
  · exact ⟨[r], (List.append_assoc ..).symm, by simpa using yields_of_emit s.rxBuf left r hemit⟩
  · exact decodes_of_same _ _ [] rfl (List.append_nil _).symm

/-- RESET apart, an operation puts out what the bytes it pushes and the buffer give. -/
theorem exec_decodeTransaction_decodes (u : Transaction) (hu : u ≠ .rst) (s t : State)
    (h : exec (decodeTransaction u) s = .next t) : Decodes s t (pushedBy u s) := by
  cases u with
  | txFrameIn record =>
    have hbuf := (exec_tx_rxHalf _ (.inl ⟨_, rfl⟩) s t h).1
    exact decodes_of_same s t [] (exec_tx_recordStream _ (.inl ⟨_, rfl⟩) s t h) (by rw [hbuf, List.append_nil])
  | txByteOut =>
    have hbuf := (exec_tx_rxHalf _ (.inr rfl) s t h).1
    exact decodes_of_same s t [] (exec_tx_recordStream _ (.inr rfl) s t h) (by rw [hbuf, List.append_nil])
  | rxByteIn b => exact execRxPush_decodes b s t h
  | internal => exact execRxStep_decodes s t h
  | rxResultOut =>
    refine decodes_of_same s t [] (execRxPop_recordStream s t h) ?_
    rcases execRxPop_cases s t h with ⟨-, rfl⟩ | ⟨r, q, -, rfl⟩ <;> exact (List.append_nil _).symm
  | rst => exact absurd rfl hu

/-- In IDLE the buffer is one of the three waiting shapes (R19). -/
def State.WaitsInIdle (s : State) : Prop := s.rxMode = .idle → WaitingBuffer s.rxBuf

theorem exec_decodeTransaction_keeps_waitsInIdle (u : Transaction) (s t : State) (hs : s.WaitsInIdle)
    (h : exec (decodeTransaction u) s = .next t) : t.WaitsInIdle := by
  cases u with
  | txFrameIn record =>
    obtain ⟨hbuf, hmode, -⟩ := exec_tx_rxHalf _ (.inl ⟨_, rfl⟩) s t h
    rwa [State.WaitsInIdle, hbuf, hmode]
  | txByteOut =>
    obtain ⟨hbuf, hmode, -⟩ := exec_tx_rxHalf _ (.inr rfl) s t h
    rwa [State.WaitsInIdle, hbuf, hmode]
  | rxByteIn b =>
    rcases execRxPush_cases b s t h with ⟨-, rfl⟩ | ⟨-, rfl⟩
    · exact hs
    · exact nofun
  | internal =>
    rcases execRxStep_attempt_cases s t h with
      ⟨-, rfl⟩ | ⟨-, hstop, rfl⟩ | ⟨hscan, -, r, left, -, rfl⟩ | ⟨-, -, -, rfl⟩
    · exact hs
    · exact fun _ => (attempt_eq_none_iff _).1 hstop
    · exact fun hidle => nomatch hidle.symm.trans hscan
    · exact hs
  | rxResultOut => rcases execRxPop_cases s t h with ⟨-, rfl⟩ | ⟨r, q, -, rfl⟩ <;> exact hs
  | rst =>
    cases h
    exact fun _ => trivial

theorem runTransactions_decodes (ts : List Transaction) (s t : State) (hrst : .rst ∉ ts) (hs : s.WaitsInIdle)
    (h : runTransactions ts s = .next t) : Decodes s t (pushedBytes ts s) ∧ t.WaitsInIdle := by
  induction ts generalizing s with
  | nil =>
    cases h
    exact ⟨decodes_of_same _ _ [] rfl (List.append_nil _).symm, hs⟩
  | cons u us ih =>
    obtain ⟨hu, hus⟩ := not_or.1 (mt List.mem_cons.2 hrst)
    obtain ⟨m, hm⟩ := exec_next (decodeTransaction u) s
    rw [runTransactions_cons u us s m hm] at h
    obtain ⟨hrest, ht⟩ := ih m hus (exec_decodeTransaction_keeps_waitsInIdle u s m hs hm) h
    rw [pushedBytes_cons u us s m hm]
    exact ⟨(exec_decodeTransaction_decodes u (Ne.symm hu) s m hm).trans hrest, ht⟩

/-- Settles O58: from an empty buffer the bytes pushed give the records put out, and then what the buffer still gives. -/
theorem recordsAreAFunctionOfThePushedBytes : Obligations.RecordsAreAFunctionOfThePushedBytes := by
  unfold Obligations.RecordsAreAFunctionOfThePushedBytes
  intro ts s t hbuf hidle hrst hrun
  have hs : s.WaitsInIdle := fun _ => by rw [hbuf]; trivial
  obtain ⟨⟨fresh, hstream, hyields⟩, ht⟩ := runTransactions_decodes ts s t hrst hs hrun
  rw [hbuf] at hyields
  have hall := hyields.decodeAll_eq
  simp only [sourceFeed_eq_decodeAll, List.append_nil]
  rw [hall]
  refine ⟨?_, rfl, fun hend => decodeAll_of_waiting t.rxBuf (ht hend)⟩
  rw [← State.recordStream, ← State.recordStream, hstream, List.append_assoc]

end Sys2Proof.Machine
end

section
/-! PROOFS of the ValidationError rules (spec/60_exceptions.md R103 to R105, R109): a refused TX_SUBMIT returns its status and
does nothing else. -/

namespace Sys2Proof.Machine

/-- A refused descriptor: the reason's status is all that TX_SUBMIT produces (R104). -/
theorem execTxSubmit_of_err (d : Descriptor) (e : ValidationError) (s : State) (hq : s.txQ = [])
    (he : encodeFrame d = .err e) :
    execTxSubmit d s = .next { s with statusOut := s.statusOut ++ [e.status] } := by
  have hfree : ¬ s.txBusy = true := by simp [txBusy_iff, hq]
  rw [execTxSubmit, if_neg hfree, he]
  rfl

/-- Settles O5: the length alone decides that the encoder answers PayloadTooLong. -/
theorem txSubmitPayloadTooLong : Obligations.TxSubmitPayloadTooLong := by
  unfold Obligations.TxSubmitPayloadTooLong
  intro d s hq hlong
  obtain ⟨-, hpayload, -⟩ := encodeAcceptsExactlyTheInvariant d
  exact execTxSubmit_of_err d .payloadTooLong s hq (hpayload.2 hlong)

/-- Settles O6: the numerals are the encoder's limits 2^11 and 2^29. -/
theorem txSubmitIdentifierOutOfRange : Obligations.TxSubmitIdentifierOutOfRange := by
  unfold Obligations.TxSubmitIdentifierOutOfRange
  intro d s hq hlen hwide
  obtain ⟨-, -, hidentifier⟩ := encodeAcceptsExactlyTheInvariant d
  exact execTxSubmit_of_err d .identifierOutOfRange s hq (hidentifier.2 ⟨hlen, hwide⟩)

/-- Settles O7: of the three ends of TX_SUBMIT only the refusal appends a status other than OK. Waiting appends none, and
loading appends OK. -/
theorem refusedSubmitChangesNothing : Obligations.RefusedSubmitChangesNothing := by
  unfold Obligations.RefusedSubmitChangesNothing
  intro d s t st hexec hstatus hrefused
  rcases execTxSubmit_cases d s t hexec with ⟨-, rfl⟩ | ⟨hq, e, -, rfl⟩ | ⟨-, e, -, rfl⟩
  · simp at hstatus
  · obtain rfl : e.status = st := by simpa using hstatus
    exact ⟨rfl, hq, fun _ => (not_txBusy_iff _).2 hq⟩
  · obtain rfl : .ok = st := by simpa using hstatus
    exact absurd rfl hrefused

end Sys2Proof.Machine
end

section
/-! PROOFS about reset and the end of a run (spec/70_reset_and_hazards.md R118, R119, R124, R131, R132): what RESET leaves,
how long the hold on TX_SUBMIT lasts, and how many operations a run without new input takes. -/

namespace Sys2Proof.Machine

/-! ### RESET (R118, R119) -/

/-- Settles O1: the reset state is written with these values. -/
theorem resetStateIsCleared : Obligations.ResetStateIsCleared := ⟨rfl, rfl, rfl, rfl⟩

theorem exec_reset (s : State) : exec .reset s = .next { s with txQ := [], rxBuf := [], rxMode := .idle, rxq := [] } := rfl

/-- Settles O2: RESET looks at nothing of the state, so it is enabled in each. -/
theorem resetClearsEveryElement : Obligations.ResetClearsEveryElement :=
  fun s => ⟨_, exec_reset s, rfl, rfl, rfl, rfl⟩

/-! ### The hold on TX_SUBMIT (R124) -/

theorem execTxEmit_of_empty (s : State) (hq : s.txQ = []) : execTxEmit s = .next s := by
  rw [execTxEmit, hq]

/-- As many TX_EMIT as there are bytes deliver them all in order, and more of them change nothing. -/
theorem txEmits_empty_txQ (n : Nat) (s : State) (hbound : s.txQ.length ≤ n) :
    runInstrs (List.replicate n .txEmit) s = .next { s with txQ := [], bytesOut := s.bytesOut ++ s.txQ } := by
  induction n generalizing s with
  | zero =>
    have hq : s.txQ = [] := List.length_eq_zero_iff.1 (Nat.le_zero.1 hbound)
    rw [hq, List.append_nil, ← hq]
    rfl
  | succ n ih =>
    rw [List.replicate_succ]
    cases hq : s.txQ with
    | nil =>
      have hrest := ih s (by rw [hq]; exact Nat.zero_le n)
      rw [hq] at hrest
      rwa [runInstrs_cons .txEmit _ s s (execTxEmit_of_empty s hq)]
    | cons b q =>
      have hshort : q.length ≤ n := by rwa [hq, List.length_cons, Nat.add_le_add_iff_right] at hbound
      rw [runInstrs_cons .txEmit _ s _ (txEmitDeliversFirstByte s b q hq), ih { s with txQ := q, bytesOut := _ } hshort,
        List.append_assoc, List.singleton_append]

/-- Settles O13: with the invariant at most 15 bytes stand in `tx_q`. -/
theorem txHoldLiftedWithinFifteen : Obligations.TxHoldLiftedWithinFifteen :=
  fun s hs => txEmits_empty_txQ 15 s hs.txQ_bound

/-! ### What the draining operations cost (R132)

Of TX_EMIT, RX_STEP and RX_POP each has its own budget in a state. An enabled one spends one of its own and adds to no
other's, so the budgets bound every run of the three, in whatever order. -/

/-- The three operations that a run without new input consists of (R132). -/
def Drains (u : Transaction) : Prop := u = .txByteOut ∨ u = .internal ∨ u = .rxResultOut

/-- How many bytes the decoder's present run may still work on. -/
def State.scanBytes (s : State) : Nat :=
  match s.rxMode with
  | .idle => 0
  | .scan => s.rxBuf.length

/-- How many RX_STEP the decoder's present run may still take: one for each byte, and one to end it (R92). -/
def State.scanSteps (s : State) : Nat :=
  match s.rxMode with
  | .idle => 0
  | .scan => s.rxBuf.length + 1

/-- How often an operation can still be taken while nothing comes in: TX_EMIT once for each byte queued, RX_STEP to the end
of the run, RX_POP once for each record queued or still to be emitted, which costs a byte each (R93). -/
def State.budget (s : State) : Transaction → Nat
  | .txByteOut   => s.txQ.length
  | .internal    => s.scanSteps
  | .rxResultOut => s.rxq.length + s.scanBytes
  | _            => 0

theorem scanBytes_le (s : State) : s.scanBytes ≤ s.rxBuf.length := by
  rw [State.scanBytes]
  split
  next => exact Nat.zero_le _
  next => exact le_rfl

theorem scanSteps_le (s : State) : s.scanSteps ≤ s.rxBuf.length + 1 := by
  rw [State.scanSteps]
  split
  next => exact Nat.zero_le _
  next => exact le_rfl

theorem budget_le (s : State) (hs : s.Inv) :
    s.budget .txByteOut ≤ 15 ∧ s.budget .internal ≤ 23 ∧ s.budget .rxResultOut ≤ s.rxq.length + 22 :=
  ⟨hs.txQ_bound, (scanSteps_le s).trans (Nat.succ_le_succ hs.rxBuf_bound),
    Nat.add_le_add_left ((scanBytes_le s).trans hs.rxBuf_bound) _⟩

/-- An enabled RX_STEP ends the run or emits. -/
theorem execRxStep_ready_cases (s t : State) (hready : s.rxStepReady = true) (h : execRxStep s = .next t) :
    s.rxMode = .scan ∧
      (t = { s with rxBuf := fromHeader s.rxBuf, rxMode := .idle } ∨
       ∃ r left, left.length < s.rxBuf.length ∧ t = { s with rxBuf := left, rxq := s.rxq ++ [r] }) := by
  obtain ⟨hscan, -⟩ := (rxStepReady_iff s).1 hready
  refine ⟨hscan, ?_⟩
  rcases execRxStep_attempt_cases s t h with
    ⟨hidle, -⟩ | ⟨-, -, rfl⟩ | ⟨-, -, r, left, hemit, rfl⟩ | ⟨-, hfull, hdue, -⟩
  · cases hidle.symm.trans hscan
  · exact .inl rfl
  · exact .inr ⟨r, left, attempt_shortens s.rxBuf left r hemit, rfl⟩
  · cases hready.symm.trans (execRxStep_of_full s hfull hdue).1

/-- A draining operation spends one of its own budget, adds to no other's, and leaves what the agents offer. -/
theorem exec_spends_budget (u : Transaction) (hu : Drains u) (s t : State) (hready : s.ready u = true)
    (h : exec (decodeTransaction u) s = .next t) :
    t.offers = s.offers ∧ ∀ v, t.budget v + [u].count v ≤ s.budget v := by
  rcases hu with rfl | rfl | rfl
  · rcases execTxEmit_cases s t h with ⟨hnone, -⟩ | ⟨b, q, hq, rfl⟩
    · exact absurd hnone ((txBusy_iff s).1 hready)
    · exact ⟨rfl, fun v => by cases v <;> simp [State.budget, State.scanBytes, State.scanSteps, hq]⟩
  · obtain ⟨hscan, rfl | ⟨r, left, hshort, rfl⟩⟩ := execRxStep_ready_cases s t hready h
    · exact ⟨rfl, fun v => by cases v <;> simp [State.budget, State.scanBytes, State.scanSteps, hscan]⟩
    · exact ⟨rfl, fun v => by cases v <;> simp [State.budget, State.scanBytes, State.scanSteps, hscan] <;> omega⟩
  · rcases execRxPop_cases s t h with ⟨hnone, -⟩ | ⟨r, q, hq, rfl⟩
    · exact absurd hnone ((resValid_iff s).1 hready)
    · exact ⟨rfl, fun v => by cases v <;> simp [State.budget, State.scanBytes, State.scanSteps, hq]⟩

theorem enabledRun_spends_budget (ts : List Transaction) (s t : State) (hts : ∀ u ∈ ts, Drains u)
    (h : EnabledRun ts s t) (v : Transaction) : t.budget v + ts.count v ≤ s.budget v := by
  induction ts generalizing s with
  | nil =>
    obtain rfl : s = t := h
    exact le_rfl
  | cons u us ih =>
    obtain ⟨hready, m, hm, hrun⟩ := h
    obtain ⟨hu, hus⟩ := List.forall_mem_cons.1 hts
    have hrest := ih m hus hrun
    have hfirst := (exec_spends_budget u hu s m hready hm).2 v
    rw [← List.singleton_append, List.count_append]
    omega

/-! ### Quiescence (R131) -/

/-- Where no draining operation is enabled the run is over: without a record in the queue there is room, so the decoder
cannot be the one that waits. -/
theorem quiescent_of_none_ready (s : State) (h : ∀ u, Drains u → s.ready u = false) : s.Quiescent := by
  have htx : s.txQ = [] := by
    have hwait : ¬ s.txBusy = true := ne_true_of_eq_false (h .txByteOut (.inl rfl))
    rwa [txBusy_iff, not_not] at hwait
  have hq : s.rxq = [] := by
    have hwait : ¬ s.resValid = true := ne_true_of_eq_false (h .rxResultOut (.inr (.inr rfl)))
    rwa [resValid_iff, not_not] at hwait
  have hidle : s.rxMode = .idle := by
    refine (rxMode_idle_or_scan s).resolve_right fun hscan => ?_
    have hroom : s.rxq.length < Config.rxqDepth := by rw [hq]; exact Nat.succ_pos _
    cases (h .internal (.inr (.inl rfl))).symm.trans ((rxStepReady_iff s).2 ⟨hscan, .inl hroom⟩)
  exact ⟨htx, hidle, hq⟩

/-- The draining operations that are left, all together. -/
def State.work (s : State) : Nat := s.budget .txByteOut + s.budget .internal + s.budget .rxResultOut

theorem work_eq_zero_iff (s : State) : s.work = 0 ↔ s.Quiescent := by
  cases hmode : s.rxMode <;> simp [State.work, State.budget, State.scanBytes, State.scanSteps, State.Quiescent, hmode]

theorem exec_lessens_work (u : Transaction) (hu : Drains u) (s t : State) (hready : s.ready u = true)
    (h : exec (decodeTransaction u) s = .next t) : t.work < s.work := by
  have hspent := (exec_spends_budget u hu s t hready h).2
  have hemit := hspent .txByteOut
  have hstep := hspent .internal
  have hpop := hspent .rxResultOut
  have hone : [u].count .txByteOut + [u].count .internal + [u].count .rxResultOut = 1 := by
    rcases hu with rfl | rfl | rfl <;> rfl
  rw [State.work, State.work]
  omega

/-! ### Steps with enough offers (R132) -/

/-- The agents offer draining operations only, and of TX_EMIT and RX_POP as many as can still be taken. RX_STEP needs no
offer (R115). -/
structure State.Served (s : State) : Prop where
  drains : ∀ u ∈ s.offers, Drains u
  enough : ∀ v, v ≠ .internal → s.budget v ≤ s.offers.count v

/-- An operation that is enabled has a budget. -/
theorem budget_pos_of_ready (s : State) (u : Transaction) (hu : Drains u) (hready : s.ready u = true) : 0 < s.budget u := by
  obtain ⟨t, h⟩ := exec_next (decodeTransaction u) s
  have hspent := (exec_spends_budget u hu s t hready h).2 u
  rw [List.count_singleton_self] at hspent
  omega

/-- Where no offer is enabled and the decoder waits too, nothing is left to do: else an enabled operation, which has a
budget, would be among the offers. -/
theorem quiescent_of_served_wait (s : State) (hs : s.Served) (hoffers : ∀ u ∈ s.offers, s.ready u = false)
    (hdecoder : s.rxStepReady = false) : s.Quiescent := by
  refine quiescent_of_none_ready s fun u hu => ?_
  by_cases hinternal : u = .internal
  · rw [hinternal]
    exact hdecoder
  · by_contra hready
    have hready : s.ready u = true := by simpa using hready
    have hoffered : u ∈ s.offers :=
      List.count_pos_iff.1 ((budget_pos_of_ready s u hu hready).trans_le (hs.enough u hinternal))
    cases hready.symm.trans (hoffers u hoffered)

theorem ready_granted (s : State) (u : Transaction) : s.granted.ready u = s.ready u := by
  cases u <;> rfl

theorem budget_granted (s : State) (u : Transaction) : s.granted.budget u = s.budget u := by
  cases u <;> rfl

/-- A step of a served block either lessens the work or finds none, and the block stays served: the offer taken and the
budget spent are of the same operation. -/
theorem step_of_served (s : State) (hs : s.Served) :
    ∃ t, step s = .next t ∧ t.Served ∧ (t.work = 0 ∨ t.work < s.work) := by
  cases hturn : s.turn with
  | some u =>
    obtain ⟨hready, before, behind, hoffers, -, hgranted⟩ := turn_eq_some s u hturn
    rw [← ready_granted] at hready
    have hu : Drains u := hs.drains u (by rw [hoffers]; exact List.mem_append_cons_self)
    obtain ⟨t, h⟩ := exec_next (decodeTransaction u) s.granted
    obtain ⟨hsame, hspent⟩ := exec_spends_budget u hu s.granted t hready h
    have htaken : s.offers.Perm (u :: t.offers) := by
      rw [hoffers, hsame, hgranted]
      exact List.perm_middle
    refine ⟨t, (step_of_turn s u hturn).trans h, ⟨fun v hv => ?_, fun v hv => ?_⟩, .inr ?_⟩
    · exact hs.drains v (htaken.mem_iff.2 (List.mem_cons_of_mem u hv))
    · have hbudget := hs.enough v hv
      have hleft := hspent v
      rw [budget_granted] at hleft
      rw [htaken.count_eq, ← List.singleton_append, List.count_append] at hbudget
      omega
    · exact exec_lessens_work u hu s.granted t hready h
  | none =>
    rw [step_of_no_turn s hturn]
    cases hdecoder : s.rxStepReady with
    | false =>
      have hquiet := quiescent_of_served_wait s hs (turn_eq_none s hturn).1 hdecoder
      have ⟨_, hidle, _⟩ := hquiet
      exact ⟨s, execRxStep_of_idle s hidle, hs, .inl ((work_eq_zero_iff s).2 hquiet)⟩
    | true =>
      have hinternal : Drains .internal := .inr (.inl rfl)
      obtain ⟨t, h⟩ := execRxStep_next s
      obtain ⟨hsame, hspent⟩ := exec_spends_budget .internal hinternal s t hdecoder h
      refine ⟨t, h, ⟨hsame ▸ hs.drains, fun v hv => ?_⟩, .inr (exec_lessens_work .internal hinternal s t hdecoder h)⟩
      rw [hsame]
      exact ((Nat.le_add_right _ _).trans (hspent v)).trans (hs.enough v hv)

theorem core_run_succ (k : Nat) (s t : State) (h : step s = .next t) : core.run (k + 1) s = core.run k t := by
  have hcore : core.step s = .next t := h
  simp only [Host.Core.run, hcore]

theorem run_of_served (k : Nat) (s : State) (hs : s.Served) (hwork : s.work ≤ k) :
    ∃ t, core.run k s = .next t ∧ t.Quiescent := by
  induction k generalizing s with
  | zero => exact ⟨s, rfl, (work_eq_zero_iff s).1 (Nat.le_zero.1 hwork)⟩
  | succ k ih =>
    obtain ⟨m, hstep, hm, hless⟩ := step_of_served s hs
    rw [core_run_succ k s m hstep]
    exact ih m hm (by omega)

/-! ### Quiescence is reached (R131, R132) -/

/-- The list of offers that O59 names serves a state within its bounds (log entry 1). -/
theorem served_by_offers (s : State) (n : Nat) (hemit : s.budget .txByteOut ≤ 15) (hpop : s.budget .rxResultOut ≤ n) :
    State.Served { s with offers := List.replicate 15 .txByteOut ++ List.replicate n .rxResultOut } where
  drains u hu := by
    rcases List.mem_append.1 hu with h | h
    · exact .inl (List.eq_of_mem_replicate h)
    · exact .inr (.inr (List.eq_of_mem_replicate h))
  enough v hv := by
    rw [List.count_append, List.count_replicate, List.count_replicate]
    cases v with
    | txByteOut => exact hemit.trans (Nat.le_add_right _ _)
    | rxResultOut => exact hpop.trans (Nat.le_add_left _ _)
    | internal => exact absurd rfl hv
    | _ => exact Nat.zero_le _

/-- Settles O59: with the invariant the three budgets are within R132's bounds, and the offers named cover them. -/
theorem quiescenceIsReached : Obligations.QuiescenceIsReached := by
  unfold Obligations.QuiescenceIsReached
  intro s hs
  obtain ⟨hemit, hstep, hpop⟩ := budget_le s hs
  refine ⟨fun ts t hts hrun => ?_, ?_⟩
  · have hspent := enabledRun_spends_budget ts s t hts hrun
    have hemits := hspent .txByteOut
    have hsteps := hspent .internal
    have hpops := hspent .rxResultOut
    exact ⟨by omega, by omega, by omega, quiescent_of_none_ready t⟩
  · exact run_of_served _ _ (served_by_offers s _ hemit hpop) (Nat.add_le_add (Nat.add_le_add hemit hstep) hpop)

end Sys2Proof.Machine
end

section
/-! PROOFS of two choices of the model, which no rule of the spec makes: an operation that is not enabled waits (log
entry 2; spec/92_eei_decisions.md D20, spec/93_implementation_defined.md I14), and RESET leaves the agents' lists (log
entry 4). -/

namespace Sys2Proof.Machine

/-! ### An operation that is not enabled waits (log entry 2) -/

theorem execTxSubmit_of_busy (d : Descriptor) (s : State) (hbusy : s.txBusy = true) : execTxSubmit d s = .next s := by
  rw [execTxSubmit, if_pos hbusy]

theorem execRxPush_of_not_ready (b : Byte) (s : State) (hwait : s.rxReady = false) : execRxPush b s = .next s := by
  rw [execRxPush, hwait, if_neg Bool.false_ne_true]

theorem execRxStep_of_not_ready (s : State) (hwait : s.rxStepReady = false) : execRxStep s = .next s := by
  rw [execRxStep, hwait, if_neg Bool.false_ne_true]

theorem execRxPop_of_empty (s : State) (hq : s.rxq = []) : execRxPop s = .next s := by
  rw [execRxPop, hq]

/-- Settles O25, interface by interface: each operation's own guard is its enable condition. RESET has none, so it never
waits. -/
theorem notEnabledWaits : Obligations.NotEnabledWaits := by
  unfold Obligations.NotEnabledWaits
  intro s t hwait
  cases t with
  | txFrameIn record =>
    have hbusy : s.txBusy = true := by simpa [State.ready] using hwait
    exact execTxSubmit_of_busy (Descriptor.unpack record) s hbusy
  | txByteOut =>
    have hq : s.txQ = [] := by simpa [State.ready, State.txBusy] using hwait
    exact execTxEmit_of_empty s hq
  | rxByteIn byte => exact execRxPush_of_not_ready byte s hwait
  | internal => exact execRxStep_of_not_ready s hwait
  | rxResultOut =>
    have hq : s.rxq = [] := by simpa [State.ready, State.resValid] using hwait
    exact execRxPop_of_empty s hq
  | rst => exact nomatch hwait

/-! ### RESET and the agents' lists (log entry 4) -/

/-- Settles O3: the state that `exec_reset` names differs from the one before in the four elements only. -/
theorem resetKeepsTheAgentsLists : Obligations.ResetKeepsTheAgentsLists := by
  unfold Obligations.ResetKeepsTheAgentsLists
  intro s t hreset
  obtain rfl := next_unique hreset (exec_reset s)
  exact ⟨rfl, rfl, rfl, rfl⟩

end Sys2Proof.Machine
end
